-- ==== Sys2Proof/Word.lean ====
section
/-! DEFINITION. The word types of the core (spec/00_scope.md rules R6, R8, R9): values are bit vectors, bit 0 is
the least significant bit, and `+` and `-` on them wrap. -/

namespace Sys2Proof

/-- 8 bits (R8). -/
abbrev Byte := BitVec 8

/-- 16 bits, the unit of instruction fetch (R6, R8). -/
abbrev Halfword := BitVec 16

/-- 32 bits: a general register, an address, the program counter (R6, R9). -/
abbrev Word := BitVec 32

/-- A general-register index, 0 to 31 (spec/10_state.md R22; spec/30_encoding.md R107). -/
abbrev RegIdx := BitVec 5

end Sys2Proof
end

