-- ==== Sys2Proof/Syntax.lean ====
section
/-! DEFINITION. The instruction set as terms: the five formats (spec/30_encoding.md R100), the 37 opcode
identifiers (R111) and the decoded instructions with their operand fields (R108). Operands stand source first, destination last, as in the
assembler form of R120. -/

namespace Sys2Proof

/-- The five format classes (R100); there is no IV and no VII. -/
inductive Format where
  /-- register and register, one halfword -/
  | I
  /-- register and 5-bit immediate or selector, one halfword -/
  | II
  /-- condition and 9-bit displacement, one halfword -/
  | III
  /-- two registers and a 16-bit immediate, two halfwords -/
  | V
  /-- two registers and a 16-bit displacement, two halfwords -/
  | VI
deriving DecidableEq, Repr

/-- The opcode identifier: what `Classify` returns (R110) and what the cycle count depends on
(spec/70_reset_and_hazards.md R271). -/
inductive Opcode where
  | movReg | sub | jmp
  | movImm5 | cli | ldsr | sei
  | bv | bc | bz | bnh | bn | br | blt | ble
  | bnv | bnc | bnz | bh | bp | nop | bge | bgt
  | movea | movhi
  | ldB | ldH | ldW | stB | stH | stW
  | inB | inH | inW | outB | outH | outW
deriving DecidableEq, Repr

/-- A decoded instruction, one constructor per row of the opcode table. Fields have the width of their
encoding, so an index or an immediate is in range by construction (R115). -/
inductive Instr where
  /-- MOV reg1, reg2 -/
  | movReg (reg1 reg2 : RegIdx)
  /-- SUB reg1, reg2 -/
  | sub (reg1 reg2 : RegIdx)
  /-- JMP [reg1] -/
  | jmp (reg1 : RegIdx)
  /-- MOV imm5, reg2 -/
  | movImm5 (imm5 : BitVec 5) (reg2 : RegIdx)
  /-- CLI -/
  | cli
  /-- LDSR reg2, regID -/
  | ldsr (reg2 : RegIdx) (regID : BitVec 5)
  /-- SEI -/
  | sei
  /-- BV disp9 -/
  | bv (disp9 : BitVec 9)
  /-- BC disp9 -/
  | bc (disp9 : BitVec 9)
  /-- BZ disp9 -/
  | bz (disp9 : BitVec 9)
  /-- BNH disp9 -/
  | bnh (disp9 : BitVec 9)
  /-- BN disp9 -/
  | bn (disp9 : BitVec 9)
  /-- BR disp9 -/
  | br (disp9 : BitVec 9)
  /-- BLT disp9 -/
  | blt (disp9 : BitVec 9)
  /-- BLE disp9 -/
  | ble (disp9 : BitVec 9)
  /-- BNV disp9 -/
  | bnv (disp9 : BitVec 9)
  /-- BNC disp9 -/
  | bnc (disp9 : BitVec 9)
  /-- BNZ disp9 -/
  | bnz (disp9 : BitVec 9)
  /-- BH disp9 -/
  | bh (disp9 : BitVec 9)
  /-- BP disp9 -/
  | bp (disp9 : BitVec 9)
  /-- NOP -/
  | nop
  /-- BGE disp9 -/
  | bge (disp9 : BitVec 9)
  /-- BGT disp9 -/
  | bgt (disp9 : BitVec 9)
  /-- MOVEA imm16, reg1, reg2 -/
  | movea (imm16 : Halfword) (reg1 reg2 : RegIdx)
  /-- MOVHI imm16, reg1, reg2 -/
  | movhi (imm16 : Halfword) (reg1 reg2 : RegIdx)
  /-- LD.B disp16[reg1], reg2 -/
  | ldB (disp16 : Halfword) (reg1 reg2 : RegIdx)
  /-- LD.H disp16[reg1], reg2 -/
  | ldH (disp16 : Halfword) (reg1 reg2 : RegIdx)
  /-- LD.W disp16[reg1], reg2 -/
  | ldW (disp16 : Halfword) (reg1 reg2 : RegIdx)
  /-- ST.B reg2, disp16[reg1] -/
  | stB (reg2 : RegIdx) (disp16 : Halfword) (reg1 : RegIdx)
  /-- ST.H reg2, disp16[reg1] -/
  | stH (reg2 : RegIdx) (disp16 : Halfword) (reg1 : RegIdx)
  /-- ST.W reg2, disp16[reg1] -/
  | stW (reg2 : RegIdx) (disp16 : Halfword) (reg1 : RegIdx)
  /-- IN.B disp16[reg1], reg2 -/
  | inB (disp16 : Halfword) (reg1 reg2 : RegIdx)
  /-- IN.H disp16[reg1], reg2 -/
  | inH (disp16 : Halfword) (reg1 reg2 : RegIdx)
  /-- IN.W disp16[reg1], reg2 -/
  | inW (disp16 : Halfword) (reg1 reg2 : RegIdx)
  /-- OUT.B reg2, disp16[reg1] -/
  | outB (reg2 : RegIdx) (disp16 : Halfword) (reg1 : RegIdx)
  /-- OUT.H reg2, disp16[reg1] -/
  | outH (reg2 : RegIdx) (disp16 : Halfword) (reg1 : RegIdx)
  /-- OUT.W reg2, disp16[reg1] -/
  | outW (reg2 : RegIdx) (disp16 : Halfword) (reg1 : RegIdx)
deriving DecidableEq, Repr

end Sys2Proof
end

