-- ==== Sys2Proof/WellFormed.lean ====
section
/-! DEFINITION. Well-formedness. A decoded instruction is well-formed by construction, since each field has the
width of its encoding (spec/30_encoding.md R115); what can be ill-formed is an operand as WRITTEN in the assembler form of R120, a
number that may not fit its field. Each kind of operand has one check on the written number, and the field it is
turned into. -/

namespace Sys2Proof

/-- A written register index or system-register selector: 0 to 31 (R107, R120). -/
def WellFormed.index (n : Nat) : Bool := decide (n < 32)

/-- A written imm5: the signed value -16 to 15 or the raw field 0 to 31 (R120). -/
def WellFormed.imm5 (z : Int) : Bool := decide (-16 ≤ z ∧ z ≤ 31)

/-- A written disp9: a signed byte offset, -256 to 255 (R107, R120). -/
def WellFormed.disp9 (z : Int) : Bool := decide (-256 ≤ z ∧ z ≤ 255)

/-- A written imm16 or disp16: the signed value -32768 to 32767 (R107) or the raw field 0 to 65535. -/
def WellFormed.half (z : Int) : Bool := decide (-32768 ≤ z ∧ z ≤ 65535)

/-- The field of a written index, where it fits. -/
def WellFormed.indexField (n : Nat) : Option (BitVec 5) :=
  if WellFormed.index n then some (BitVec.ofNat 5 n) else none

/-- The field of a written imm5, where it fits. -/
def WellFormed.imm5Field (z : Int) : Option (BitVec 5) :=
  if WellFormed.imm5 z then some (BitVec.ofInt 5 z) else none

/-- The field of a written disp9, where it fits. -/
def WellFormed.disp9Field (z : Int) : Option (BitVec 9) :=
  if WellFormed.disp9 z then some (BitVec.ofInt 9 z) else none

/-- The field of a written imm16 or disp16, where it fits. -/
def WellFormed.halfField (z : Int) : Option Halfword :=
  if WellFormed.half z then some (BitVec.ofInt 16 z) else none

/-- Every operand of an instruction passes the check of its kind: registers and selectors as indices, imm5, disp9, imm16 and disp16 as
the signed numbers they stand for, MOVHI's imm16 as a raw field (R107). -/
def Instr.wellFormed : Instr → Bool
  | .movReg r1 r2 => WellFormed.index r1.toNat && WellFormed.index r2.toNat
  | .sub r1 r2 => WellFormed.index r1.toNat && WellFormed.index r2.toNat
  | .jmp r1 => WellFormed.index r1.toNat
  | .movImm5 i r2 => WellFormed.imm5 i.toInt && WellFormed.index r2.toNat
  | .cli => true
  | .ldsr r2 k => WellFormed.index r2.toNat && WellFormed.index k.toNat
  | .sei => true
  | .bv d => WellFormed.disp9 d.toInt
  | .bc d => WellFormed.disp9 d.toInt
  | .bz d => WellFormed.disp9 d.toInt
  | .bnh d => WellFormed.disp9 d.toInt
  | .bn d => WellFormed.disp9 d.toInt
  | .br d => WellFormed.disp9 d.toInt
  | .blt d => WellFormed.disp9 d.toInt
  | .ble d => WellFormed.disp9 d.toInt
  | .bnv d => WellFormed.disp9 d.toInt
  | .bnc d => WellFormed.disp9 d.toInt
  | .bnz d => WellFormed.disp9 d.toInt
  | .bh d => WellFormed.disp9 d.toInt
  | .bp d => WellFormed.disp9 d.toInt
  | .nop => true
  | .bge d => WellFormed.disp9 d.toInt
  | .bgt d => WellFormed.disp9 d.toInt
  | .movea i r1 r2 => WellFormed.half i.toInt && WellFormed.index r1.toNat && WellFormed.index r2.toNat
  | .movhi i r1 r2 => WellFormed.half i.toNat && WellFormed.index r1.toNat && WellFormed.index r2.toNat
  | .ldB d r1 r2 => WellFormed.half d.toInt && WellFormed.index r1.toNat && WellFormed.index r2.toNat
  | .ldH d r1 r2 => WellFormed.half d.toInt && WellFormed.index r1.toNat && WellFormed.index r2.toNat
  | .ldW d r1 r2 => WellFormed.half d.toInt && WellFormed.index r1.toNat && WellFormed.index r2.toNat
  | .stB r2 d r1 => WellFormed.half d.toInt && WellFormed.index r1.toNat && WellFormed.index r2.toNat
  | .stH r2 d r1 => WellFormed.half d.toInt && WellFormed.index r1.toNat && WellFormed.index r2.toNat
  | .stW r2 d r1 => WellFormed.half d.toInt && WellFormed.index r1.toNat && WellFormed.index r2.toNat
  | .inB d r1 r2 => WellFormed.half d.toInt && WellFormed.index r1.toNat && WellFormed.index r2.toNat
  | .inH d r1 r2 => WellFormed.half d.toInt && WellFormed.index r1.toNat && WellFormed.index r2.toNat
  | .inW d r1 r2 => WellFormed.half d.toInt && WellFormed.index r1.toNat && WellFormed.index r2.toNat
  | .outB r2 d r1 => WellFormed.half d.toInt && WellFormed.index r1.toNat && WellFormed.index r2.toNat
  | .outH r2 d r1 => WellFormed.half d.toInt && WellFormed.index r1.toNat && WellFormed.index r2.toNat
  | .outW r2 d r1 => WellFormed.half d.toInt && WellFormed.index r1.toNat && WellFormed.index r2.toNat

end Sys2Proof
end

