-- ==== Sys2Proof/Decode.lean ====
section
/-! DEFINITION. Decoding and encoding (spec/30_encoding.md): classification of the first halfword (R110, R111), the
length (R106), the operand fields (R101 to R105, R107, R108), then the encoder and R111's match/mask table. Bit
patterns are the spec's, which marks them as general knowledge (log entry 8). -/

namespace Sys2Proof

/-! ### Classification -/

/-- The format of each opcode (R111, format column). -/
def Opcode.format : Opcode → Format
  | .movReg | .sub | .jmp => .I
  | .movImm5 | .cli | .ldsr | .sei => .II
  | .bv | .bc | .bz | .bnh | .bn | .br | .blt | .ble => .III
  | .bnv | .bnc | .bnz | .bh | .bp | .nop | .bge | .bgt => .III
  | .movea | .movhi => .V
  | .ldB | .ldH | .ldW | .stB | .stH | .stW => .VI
  | .inB | .inH | .inW | .outB | .outH | .outW => .VI

/-- Whether a second halfword follows: formats V and VI (R100; spec/10_state.md R31 line S4). -/
def Opcode.twoHalfwords (op : Opcode) : Bool :=
  match op.format with
  | .V | .VI => true
  | .I | .II | .III => false

/-- `BCOND_TABLE` (R111, second table), indexed by `cond`. -/
def condOpcode (cond : BitVec 4) : Opcode :=
  match cond.toNat with
  | 0 => .bv
  | 1 => .bc
  | 2 => .bz
  | 3 => .bnh
  | 4 => .bn
  | 5 => .br
  | 6 => .blt
  | 7 => .ble
  | 8 => .bnv
  | 9 => .bnc
  | 10 => .bnz
  | 11 => .bh
  | 12 => .bp
  | 13 => .nop
  | 14 => .bge
  | _ => .bgt

/-- The first table of R111, indexed by `opc6`; `none` is UNRECOGNIZED (R112). -/
def opc6Opcode (opc6 : BitVec 6) : Option Opcode :=
  match opc6.toNat with
  | 0x00 => some .movReg
  | 0x02 => some .sub
  | 0x06 => some .jmp
  | 0x10 => some .movImm5
  | 0x16 => some .cli
  | 0x1C => some .ldsr
  | 0x1E => some .sei
  | 0x28 => some .movea
  | 0x2F => some .movhi
  | 0x30 => some .ldB
  | 0x31 => some .ldH
  | 0x33 => some .ldW
  | 0x34 => some .stB
  | 0x35 => some .stH
  | 0x37 => some .stW
  | 0x38 => some .inB
  | 0x39 => some .inH
  | 0x3B => some .inW
  | 0x3C => some .outB
  | 0x3D => some .outH
  | 0x3F => some .outW
  | _ => none

/-- `Classify(hw1)` (R110): the test on bits 15:13 comes first. -/
def classify (hw1 : Halfword) : Option Opcode :=
  if hw1.extractLsb' 13 3 = 0b100#3 then
    some (condOpcode (hw1.extractLsb' 9 4))
  else
    opc6Opcode (hw1.extractLsb' 10 6)

/-! ### Operand fields (spec/00_scope.md R14) -/

/-- `reg1`, `imm5` and `regID`: hw1[4:0]. -/
def fieldLow5 (hw1 : Halfword) : BitVec 5 := hw1.extractLsb' 0 5

/-- `reg2`: hw1[9:5]. -/
def fieldReg2 (hw1 : Halfword) : RegIdx := hw1.extractLsb' 5 5

/-- `disp9`: hw1[8:0]. -/
def fieldDisp9 (hw1 : Halfword) : BitVec 9 := hw1.extractLsb' 0 9

/-- Field extraction (R108): a pure function of the opcode and the two halfwords; a one-halfword format does not look at
`hw2`, and ignored fields are not looked at (R113). -/
def Opcode.extract (op : Opcode) (hw1 hw2 : Halfword) : Instr :=
  match op with
  | .movReg => .movReg (fieldLow5 hw1) (fieldReg2 hw1)
  | .sub => .sub (fieldLow5 hw1) (fieldReg2 hw1)
  | .jmp => .jmp (fieldLow5 hw1)
  | .movImm5 => .movImm5 (fieldLow5 hw1) (fieldReg2 hw1)
  | .cli => .cli
  | .ldsr => .ldsr (fieldReg2 hw1) (fieldLow5 hw1)
  | .sei => .sei
  | .bv => .bv (fieldDisp9 hw1)
  | .bc => .bc (fieldDisp9 hw1)
  | .bz => .bz (fieldDisp9 hw1)
  | .bnh => .bnh (fieldDisp9 hw1)
  | .bn => .bn (fieldDisp9 hw1)
  | .br => .br (fieldDisp9 hw1)
  | .blt => .blt (fieldDisp9 hw1)
  | .ble => .ble (fieldDisp9 hw1)
  | .bnv => .bnv (fieldDisp9 hw1)
  | .bnc => .bnc (fieldDisp9 hw1)
  | .bnz => .bnz (fieldDisp9 hw1)
  | .bh => .bh (fieldDisp9 hw1)
  | .bp => .bp (fieldDisp9 hw1)
  | .nop => .nop
  | .bge => .bge (fieldDisp9 hw1)
  | .bgt => .bgt (fieldDisp9 hw1)
  | .movea => .movea hw2 (fieldLow5 hw1) (fieldReg2 hw1)
  | .movhi => .movhi hw2 (fieldLow5 hw1) (fieldReg2 hw1)
  | .ldB => .ldB hw2 (fieldLow5 hw1) (fieldReg2 hw1)
  | .ldH => .ldH hw2 (fieldLow5 hw1) (fieldReg2 hw1)
  | .ldW => .ldW hw2 (fieldLow5 hw1) (fieldReg2 hw1)
  | .stB => .stB (fieldReg2 hw1) hw2 (fieldLow5 hw1)
  | .stH => .stH (fieldReg2 hw1) hw2 (fieldLow5 hw1)
  | .stW => .stW (fieldReg2 hw1) hw2 (fieldLow5 hw1)
  | .inB => .inB hw2 (fieldLow5 hw1) (fieldReg2 hw1)
  | .inH => .inH hw2 (fieldLow5 hw1) (fieldReg2 hw1)
  | .inW => .inW hw2 (fieldLow5 hw1) (fieldReg2 hw1)
  | .outB => .outB (fieldReg2 hw1) hw2 (fieldLow5 hw1)
  | .outH => .outH (fieldReg2 hw1) hw2 (fieldLow5 hw1)
  | .outW => .outW (fieldReg2 hw1) hw2 (fieldLow5 hw1)

/-! ### Decoding a stream -/

/-- Why a stream of halfwords or bytes is no instruction. -/
inductive DecodeError where
  /-- the first halfword matches no opcode (R112) -/
  | unrecognized (hw1 : Halfword)
  /-- the stream ends inside an instruction -/
  | truncated
deriving DecidableEq, Repr

/-- An instruction and what follows it, or the reason there is none. -/
inductive Decoded (α : Type) where
  | instr (i : Instr) (rest : List α)
  | rejected (e : DecodeError)
deriving DecidableEq, Repr

/-- Decode the first instruction of a stream of halfwords (R100, R106, R110): total, rejecting by name. -/
def decode : List Halfword → Decoded Halfword
  | [] => .rejected .truncated
  | hw1 :: rest =>
    match classify hw1 with
    | none => .rejected (.unrecognized hw1)
    | some op =>
      if op.twoHalfwords then
        match rest with
        | [] => .rejected .truncated
        | hw2 :: rest' => .instr (op.extract hw1 hw2) rest'
      else .instr (op.extract hw1 0#16) rest

/-- The halfword of two bytes, the first at the lower address (spec/20_memory.md R87). -/
def joinBytes (lo hi : Byte) : Halfword := lo.setWidth 16 ||| hi.setWidth 16 <<< 8

/-- Decode the first instruction of a stream of bytes, lowest address first, each halfword little-endian as the
reference bus stores it (R87). -/
def decodeBytes : List Byte → Decoded Byte
  | b0 :: b1 :: rest =>
    match classify (joinBytes b0 b1) with
    | none => .rejected (.unrecognized (joinBytes b0 b1))
    | some op =>
      if op.twoHalfwords then
        match rest with
        | b2 :: b3 :: rest' => .instr (op.extract (joinBytes b0 b1) (joinBytes b2 b3)) rest'
        | _ => .rejected .truncated
      else .instr (op.extract (joinBytes b0 b1) 0#16) rest
  | _ => .rejected .truncated

/-- The four bytes, lowest address first, of an instruction whose bits are `w` (numbered from the least significant bit of
the first halfword); bits from `nbits` up are 0. -/
def tableWordBytes (nbits w : Nat) : List Byte :=
  let v : Word := BitVec.ofNat 32 (w % 2 ^ nbits)
  [v.extractLsb' 0 8, v.extractLsb' 8 8, v.extractLsb' 16 8, v.extractLsb' 24 8]

/-- The instruction that `decodeBytes` reads from an opcode-table word. -/
def decodeTableWord (nbits w : Nat) : Option Instr :=
  match decodeBytes (tableWordBytes nbits w) with
  | .instr i _ => some i
  | .rejected _ => none

/-! ### Encoding -/

/-- Formats I and II, and the first halfword of V and VI (R101, R102, R104, R105). -/
def packFields (opc6 : BitVec 6) (reg2 low5 : BitVec 5) : Halfword := opc6 ++ reg2 ++ low5

/-- Format III (R103). -/
def packCond (cond : BitVec 4) (disp9 : BitVec 9) : Halfword := 0b100#3 ++ cond ++ disp9

/-- The halfwords of an instruction, `hw1` first, with 0 in every ignored field (R111, R113). -/
def encode : Instr → List Halfword
  | .movReg r1 r2 => [packFields 0b000000#6 r2 r1]
  | .sub r1 r2 => [packFields 0b000010#6 r2 r1]
  | .jmp r1 => [packFields 0b000110#6 0#5 r1]
  | .movImm5 i r2 => [packFields 0b010000#6 r2 i]
  | .cli => [packFields 0b010110#6 0#5 0#5]
  | .ldsr r2 k => [packFields 0b011100#6 r2 k]
  | .sei => [packFields 0b011110#6 0#5 0#5]
  | .bv d => [packCond 0b0000#4 d]
  | .bc d => [packCond 0b0001#4 d]
  | .bz d => [packCond 0b0010#4 d]
  | .bnh d => [packCond 0b0011#4 d]
  | .bn d => [packCond 0b0100#4 d]
  | .br d => [packCond 0b0101#4 d]
  | .blt d => [packCond 0b0110#4 d]
  | .ble d => [packCond 0b0111#4 d]
  | .bnv d => [packCond 0b1000#4 d]
  | .bnc d => [packCond 0b1001#4 d]
  | .bnz d => [packCond 0b1010#4 d]
  | .bh d => [packCond 0b1011#4 d]
  | .bp d => [packCond 0b1100#4 d]
  | .nop => [packCond 0b1101#4 0#9]
  | .bge d => [packCond 0b1110#4 d]
  | .bgt d => [packCond 0b1111#4 d]
  | .movea i r1 r2 => [packFields 0b101000#6 r2 r1, i]
  | .movhi i r1 r2 => [packFields 0b101111#6 r2 r1, i]
  | .ldB d r1 r2 => [packFields 0b110000#6 r2 r1, d]
  | .ldH d r1 r2 => [packFields 0b110001#6 r2 r1, d]
  | .ldW d r1 r2 => [packFields 0b110011#6 r2 r1, d]
  | .stB r2 d r1 => [packFields 0b110100#6 r2 r1, d]
  | .stH r2 d r1 => [packFields 0b110101#6 r2 r1, d]
  | .stW r2 d r1 => [packFields 0b110111#6 r2 r1, d]
  | .inB d r1 r2 => [packFields 0b111000#6 r2 r1, d]
  | .inH d r1 r2 => [packFields 0b111001#6 r2 r1, d]
  | .inW d r1 r2 => [packFields 0b111011#6 r2 r1, d]
  | .outB r2 d r1 => [packFields 0b111100#6 r2 r1, d]
  | .outH r2 d r1 => [packFields 0b111101#6 r2 r1, d]
  | .outW r2 d r1 => [packFields 0b111111#6 r2 r1, d]

/-- The bytes of a stream of halfwords on the reference bus, lowest address first (spec/20_memory.md R87). -/
def halfwordBytes : List Halfword → List Byte
  | [] => []
  | h :: hs => h.extractLsb' 0 8 :: h.extractLsb' 8 8 :: halfwordBytes hs

/-- The opcode identifier of an instruction. -/
def Instr.opcode : Instr → Opcode
  | .movReg _ _ => .movReg
  | .sub _ _ => .sub
  | .jmp _ => .jmp
  | .movImm5 _ _ => .movImm5
  | .cli => .cli
  | .ldsr _ _ => .ldsr
  | .sei => .sei
  | .bv _ => .bv
  | .bc _ => .bc
  | .bz _ => .bz
  | .bnh _ => .bnh
  | .bn _ => .bn
  | .br _ => .br
  | .blt _ => .blt
  | .ble _ => .ble
  | .bnv _ => .bnv
  | .bnc _ => .bnc
  | .bnz _ => .bnz
  | .bh _ => .bh
  | .bp _ => .bp
  | .nop => .nop
  | .bge _ => .bge
  | .bgt _ => .bgt
  | .movea _ _ _ => .movea
  | .movhi _ _ _ => .movhi
  | .ldB _ _ _ => .ldB
  | .ldH _ _ _ => .ldH
  | .ldW _ _ _ => .ldW
  | .stB _ _ _ => .stB
  | .stH _ _ _ => .stH
  | .stW _ _ _ => .stW
  | .inB _ _ _ => .inB
  | .inH _ _ _ => .inH
  | .inW _ _ _ => .inW
  | .outB _ _ _ => .outB
  | .outH _ _ _ => .outH
  | .outW _ _ _ => .outW

/-- The bits of `hw1` that an opcode's instruction depends on; the others are ignored (R113). -/
def Opcode.usedBits : Opcode → Halfword
  | .jmp => 0xFC1F#16
  | .cli | .sei => 0xFC00#16
  | .nop => 0xFE00#16
  | _ => 0xFFFF#16

/-- The match and mask columns of R111's two tables. -/
def opcodeTable : List (Opcode × Halfword × Halfword) :=
  [(.movReg, 0x0000#16, 0xFC00#16), (.sub, 0x0800#16, 0xFC00#16), (.jmp, 0x1800#16, 0xFC00#16),
    (.movImm5, 0x4000#16, 0xFC00#16), (.cli, 0x5800#16, 0xFC00#16), (.ldsr, 0x7000#16, 0xFC00#16),
    (.sei, 0x7800#16, 0xFC00#16), (.movea, 0xA000#16, 0xFC00#16), (.movhi, 0xBC00#16, 0xFC00#16)] ++
  [(.ldB, 0xC000#16, 0xFC00#16), (.ldH, 0xC400#16, 0xFC00#16), (.ldW, 0xCC00#16, 0xFC00#16),
    (.stB, 0xD000#16, 0xFC00#16), (.stH, 0xD400#16, 0xFC00#16), (.stW, 0xDC00#16, 0xFC00#16),
    (.inB, 0xE000#16, 0xFC00#16), (.inH, 0xE400#16, 0xFC00#16), (.inW, 0xEC00#16, 0xFC00#16),
    (.outB, 0xF000#16, 0xFC00#16), (.outH, 0xF400#16, 0xFC00#16), (.outW, 0xFC00#16, 0xFC00#16)] ++
  [(.bv, 0x8000#16, 0xFE00#16), (.bc, 0x8200#16, 0xFE00#16), (.bz, 0x8400#16, 0xFE00#16),
    (.bnh, 0x8600#16, 0xFE00#16), (.bn, 0x8800#16, 0xFE00#16), (.br, 0x8A00#16, 0xFE00#16),
    (.blt, 0x8C00#16, 0xFE00#16), (.ble, 0x8E00#16, 0xFE00#16)] ++
  [(.bnv, 0x9000#16, 0xFE00#16), (.bnc, 0x9200#16, 0xFE00#16), (.bnz, 0x9400#16, 0xFE00#16),
    (.bh, 0x9600#16, 0xFE00#16), (.bp, 0x9800#16, 0xFE00#16), (.nop, 0x9A00#16, 0xFE00#16),
    (.bge, 0x9C00#16, 0xFE00#16), (.bgt, 0x9E00#16, 0xFE00#16)]

end Sys2Proof
end

