-- ==== Sys2Proof/Config.lean ====
section
/-! DEFINITION. What is fixed for the machine (spec/00_scope.md R6) and what the spec leaves open (R7). An open
value is an `opaque` constant: no proof can see it, so a claim holds whatever it is. -/

namespace Sys2Proof.Config

/-- The reset value of the program counter (R6; spec/10_state.md R33). -/
def resetVector : Word := 0xFFFFFFF0#32

/-- The packed status word after reset: only bit 15, NP (R6; spec/10_state.md R46). -/
def resetPsw : Word := 0x00008000#32

/-- The packed positions that have storage: bits 0 to 9, 12 to 15, 16 to 19 (R6; spec/10_state.md R40, R43). -/
def pswWriteMask : Word := 0x000FF3FF#32

/-- `PSW_SYSREG_ID`: the selector value that names the status word in LDSR (spec/10_state.md R47; the number is
the spec's decision D5, log entry 7). -/
def pswSysregId : BitVec 5 := 5#5

/-- `BLE_DISPUTED_TAKEN`: whether BLE is taken when S xor OV = 1 and Z = 1 (spec/43_conditional_branch.md R168,
decision D4). A free value, log entry 6; the spec's default is true. -/
opaque bleDisputedTaken : Bool

/-- `CYCLES(op, taken)`: the count handed to the bus after a completed step (spec/70_reset_and_hazards.md R271,
decision D14). A free value, log entry 5. -/
opaque cycles : Opcode → Bool → Word

/-- What the reference bus answers to a misaligned read when the outside supplied no answer; the argument is
`State.freeCount`. A free value, log entry 4. -/
opaque misalignedRead : Nat → Word

/-- The bytes that a misaligned write leaves in the addresses it may touch; the arguments are `State.freeCount`
and the place in the span. A free value, log entry 4. -/
opaque misalignedWrite : Nat → Nat → Byte

end Sys2Proof.Config
end

