-- ==== Sys2Proof/Machine/State.lean ====
section
/-! DEFINITION. The state of the machine as plain data: the core's registers, program counter and status word
(spec/10_state.md), the spec's fault mark (spec/60_exceptions.md R233), and the external bus (spec/20_memory.md), which
the core does not own (R51) but a run needs. Then the reasons a step can stop, and reset. -/

namespace Sys2Proof.Machine

/-- The status word: 14 flags and the 4-bit level, 18 stored bits (spec/10_state.md R20, R40). Packed bits 10, 11 and 20
to 31 have no storage (R41). -/
structure Psw where
  /-- zero, bit 0 -/
  z : Bool
  /-- sign, bit 1 -/
  s : Bool
  /-- overflow, bit 2 -/
  ov : Bool
  /-- carry, bit 3 -/
  cy : Bool
  /-- FP precision degradation, bit 4: storage only -/
  fpr : Bool
  /-- FP underflow, bit 5: storage only -/
  fud : Bool
  /-- FP overflow, bit 6: storage only -/
  fov : Bool
  /-- FP zero division, bit 7: storage only -/
  fzd : Bool
  /-- FP invalid operation, bit 8: storage only -/
  fiv : Bool
  /-- FP reserved operand, bit 9: storage only -/
  fro : Bool
  /-- interrupt disable, bit 12 -/
  id : Bool
  /-- address-trap enable, bit 13: storage only -/
  ae : Bool
  /-- exception pending, bit 14: storage only -/
  ep : Bool
  /-- NMI pending, bit 15: storage only -/
  np : Bool
  /-- interrupt mask level, bits 19:16: storage only -/
  il : BitVec 4
deriving DecidableEq, Repr

/-- The width of a data access: 1, 2 or 4 bytes (spec/20_memory.md R81). -/
inductive Width where
  | byte | half | word
deriving DecidableEq, Repr

/-- One bus operation, as the bus sees it: the seven of spec/20_memory.md R70. -/
inductive BusEvent where
  | readByte (addr : Word)
  | readHalfword (addr : Word)
  | readWord (addr : Word)
  | writeByte (addr : Word) (v : Byte)
  | writeHalfword (addr : Word) (v : Halfword)
  | writeWord (addr : Word) (v : Word)
  | cycles (n : Word)
deriving DecidableEq, Repr

/-- The three ways the core stops (spec/60_exceptions.md R230). A fault is no exception: it saves nothing, uses no
vector and changes no architectural state (R231, R232); the core then has no step until reset (R233). -/
inductive Fault where
  /-- Raised by the step (spec/10_state.md R31 line S1) when it begins with an odd `pc`, before any bus access. Safe: the spec's own
  stop (decision D8), which errs toward unprovable. -/
  | misalignedPc (pc : Word)
  /-- Raised by the step (R31 line S3) when the first halfword is unrecognized (spec/30_encoding.md R112). Safe: the spec's own stop
  (decision D7). -/
  | unrecognizedOpcode (pc : Word) (hw1 : Halfword)
  /-- Raised by LDSR with a selector that is not the status word's (spec/44_system.md R191). Safe: the spec's own stop
  (decision D6). -/
  | unimplementedSystemRegister (pc : Word) (regID : BitVec 5)
deriving DecidableEq, Repr

/-- Why there is no step. -/
inductive Refusal where
  /-- Answered by `exec`'s arm of an instruction that has no meaning; no arm does. Safe. -/
  | notModelled (mnemonic : String)
  /-- Answered by `step` while the fault mark is set: no step exists (spec/60_exceptions.md R233). Safe. -/
  | faultMarkSet (mark : Fault)
  /-- Answered by `stepOnRefBus` alone, where the step issues an access that does not meet its `requires` clause: the reference bus gives it no
  answer and a run on it is stuck there (spec/20_memory.md R87). No instruction's meaning and no `step` answers it. Safe: it errs toward unprovable. -/
  | referenceBusRefuses (access : BusEvent)
deriving DecidableEq, Repr

/-- The bytes of the reference bus: addresses strictly rising, no byte listed that an unlisted address reads as
(`Memory.wf` in Sys2Proof/Machine/Memory.lean). -/
abbrev Memory := List Host.Cell

/-- The machine. `regs` to `faultMark` are the core's; the rest is the external bus and what the model adds. -/
structure State where
  /-- `x[1]` to `x[31]`, `x[i]` at place `i - 1` (R22); read and written by `State.gpr` and `State.setGpr` alone -/
  regs : Vector Word 31
  /-- the program counter (R28) -/
  pc : Word
  /-- the status word (R40) -/
  psw : Psw
  /-- the sticky fault mark, with the fault that set it (spec/60_exceptions.md R233) -/
  faultMark : Option Fault
  /-- the bytes of the reference bus (spec/20_memory.md R87) -/
  mem : Memory
  /-- the answers of the bus to the next reads, in order (R71: an input of the step); `none`, and an empty list, leave the
  answer to the reference bus (log entry 1) -/
  busAnswers : List (Option Word)
  /-- the bus operations of the most recent step, oldest first (spec/00_scope.md R12; spec/20_memory.md R79) -/
  busLog : List BusEvent
  /-- the running total of reported cycles (R87) -/
  cycleTotal : Nat
  /-- the model's own: how many free values were used (log entry 4) -/
  freeCount : Nat
deriving DecidableEq, Repr

/-- The status word after reset: only NP (spec/10_state.md R46). -/
def Psw.reset : Psw where
  z := false
  s := false
  ov := false
  cy := false
  fpr := false
  fud := false
  fov := false
  fzd := false
  fiv := false
  fro := false
  id := false
  ae := false
  ep := false
  np := true
  il := 0#4

/-- The machine right after reset, on a reference bus where nothing was written (spec/70_reset_and_hazards.md R260;
spec/20_memory.md R87). -/
def State.reset : State where
  regs := Vector.replicate 31 0#32
  pc := Config.resetVector
  psw := Psw.reset
  faultMark := none
  mem := []
  busAnswers := []
  busLog := []
  cycleTotal := 0
  freeCount := 0

end Sys2Proof.Machine
end

