-- ==== Sys2Proof/Machine/Memory.lean ====
section
/-! DEFINITION. The bytes of the reference bus (spec/20_memory.md R87): a list of cells in one canonical form, the read
and write of one byte, and little-endian access of 2 and 4 bytes built from them. Address sums wrap (R87). -/

namespace Sys2Proof.Machine

/-- What an unlisted address reads as: the reference bus is 0x00 where nothing was placed (R87). -/
def unlistedByte : Byte := 0#8

/-- The byte at an address. -/
def Memory.read (m : Memory) (a : Nat) : Byte :=
  match m with
  | [] => unlistedByte
  | c :: rest => if c.1 = a then c.2 else Memory.read rest a

/-- Put a cell into a list of rising addresses, replacing a cell at the same address. -/
def Memory.insert (m : Memory) (a : Nat) (b : Byte) : Memory :=
  match m with
  | [] => [(a, b)]
  | c :: rest =>
    if a < c.1 then (a, b) :: c :: rest
    else if a = c.1 then (a, b) :: rest
    else c :: Memory.insert rest a b

/-- Take the cell at an address out. -/
def Memory.erase (m : Memory) (a : Nat) : Memory :=
  match m with
  | [] => []
  | c :: rest => if c.1 = a then rest else c :: Memory.erase rest a

/-- Write one byte; writing the unlisted byte takes the cell out, so the form stays canonical. -/
def Memory.write (m : Memory) (a : Nat) (b : Byte) : Memory :=
  if b = unlistedByte then Memory.erase m a else Memory.insert m a b

/-- The cells from `lo` up: addresses strictly rising, inside the 32-bit space, no cell equal to the unlisted byte. -/
def Memory.wfFrom (lo : Nat) (m : Memory) : Bool :=
  match m with
  | [] => true
  | c :: rest =>
    decide (lo ≤ c.1) && decide (c.1 < 2 ^ 32) && decide (c.2 ≠ unlistedByte) && Memory.wfFrom (c.1 + 1) rest

/-- The canonical form: equal memories are equal lists. -/
def Memory.wf (m : Memory) : Bool := Memory.wfFrom 0 m

/-- Write bytes at consecutive addresses, the first at `a`; addresses wrap (R87). -/
def Memory.writeBytes (m : Memory) (a : Word) (bs : List Byte) : Memory :=
  match bs with
  | [] => m
  | b :: rest => Memory.writeBytes (Memory.write m a.toNat b) (a + 1#32) rest

/-- `read_byte(a)` of R87. -/
def Memory.readByte (m : Memory) (a : Word) : Byte := Memory.read m a.toNat

/-- `read_halfword(a)` of R87: the byte at `a` is the low one. -/
def Memory.readHalfword (m : Memory) (a : Word) : Halfword :=
  joinBytes (Memory.readByte m a) (Memory.readByte m (a + 1#32))

/-- `read_word(a)` of R87: the byte at `a` is the lowest. -/
def Memory.readWord (m : Memory) (a : Word) : Word :=
  (Memory.readByte m a).setWidth 32 ||| (Memory.readByte m (a + 1#32)).setWidth 32 <<< 8 |||
    (Memory.readByte m (a + 2#32)).setWidth 32 <<< 16 ||| (Memory.readByte m (a + 3#32)).setWidth 32 <<< 24

/-- The bytes of a 32-bit value, least significant first. -/
def wordBytes (v : Word) : List Byte :=
  [v.extractLsb' 0 8, v.extractLsb' 8 8, v.extractLsb' 16 8, v.extractLsb' 24 8]

/-- The number of bytes of an access (spec/20_memory.md R81). -/
def Width.bytes : Width → Nat
  | .byte => 1
  | .half => 2
  | .word => 4

/-- `trunc_(8n)`, as a 32-bit value with the bits above it zero (spec/00_scope.md R10, R12). -/
def Width.trunc (w : Width) (v : Word) : Word :=
  match w with
  | .byte => (v.setWidth 8).setWidth 32
  | .half => (v.setWidth 16).setWidth 32
  | .word => v

/-- `MemRead(a, n)` on the reference bus, as a 32-bit value with the bits above the width zero. -/
def Memory.readWidth (m : Memory) (w : Width) (a : Word) : Word :=
  match w with
  | .byte => (Memory.readByte m a).setWidth 32
  | .half => (Memory.readHalfword m a).setWidth 32
  | .word => Memory.readWord m a

/-- `MemWrite(a, n, v)` on the reference bus, for an aligned address: the `n` low bytes of `v`, little-endian. -/
def Memory.writeWidth (m : Memory) (w : Width) (a v : Word) : Memory :=
  Memory.writeBytes m a ((wordBytes v).take w.bytes)

/-- Whether the reference bus's `requires` clause holds (R87): bytes anywhere, halfwords at even addresses, words at
multiples of 4. -/
def Width.aligned (w : Width) (a : Word) : Bool :=
  match w with
  | .byte => true
  | .half => a.extractLsb' 0 1 == 0#1
  | .word => a.extractLsb' 0 2 == 0#2

/-- The address with the bits below the width cleared. -/
def Width.alignDown (w : Width) (a : Word) : Word :=
  match w with
  | .byte => a
  | .half => a &&& 0xFFFFFFFE#32
  | .word => a &&& 0xFFFFFFFC#32

end Sys2Proof.Machine
end

