-- ==== Sys2Proof/Machine/Operands.lean ====
section
/-! DEFINITION. How an operand is formed from its field (spec/30_encoding.md R107): the extension primitives of spec/00_scope.md R10,
the general-register file (spec/10_state.md R24, R25) and the one addressing mode (spec/45_load.md R200; spec/46_store.md R215). -/

namespace Sys2Proof.Machine

/-- `sext_N(v)` (spec/00_scope.md R10). -/
def sext {n : Nat} (v : BitVec n) : Word := v.signExtend 32

/-- `zext_N(v)` (R10). -/
def zext {n : Nat} (v : BitVec n) : Word := v.setWidth 32

/-- MOVHI's operand: `zext_16(imm16) << 16` (spec/30_encoding.md R107). -/
def highHalf (imm16 : Halfword) : Word := zext imm16 <<< 16

/-- The value that a load writes: sign-extended for a byte and a halfword, unmodified for a word (spec/20_memory.md
R81). The argument holds the bus's answer in its low bits. -/
def Width.extend (w : Width) (v : Word) : Word :=
  match w with
  | .byte => sext (v.setWidth 8)
  | .half => sext (v.setWidth 16)
  | .word => v

/-- `x[i]`: index 0 reads zero (spec/10_state.md R24). -/
def State.gpr (s : State) (i : RegIdx) : Word :=
  if h : i.toNat = 0 then 0#32 else s.regs[i.toNat - 1]'(by have := i.isLt; omega)

/-- `x[i] <- v`: a write to index 0 is discarded (spec/10_state.md R25). -/
def State.setGpr (s : State) (i : RegIdx) (v : Word) : State :=
  if h : i.toNat = 0 then s
  else { s with regs := s.regs.set (i.toNat - 1) v (by have := i.isLt; omega) }

/-- The effective address `x[reg1] + sext_16(disp16)` (spec/45_load.md R200; spec/46_store.md R215); it wraps. -/
def State.effAddr (s : State) (reg1 : RegIdx) (disp16 : Halfword) : Word := s.gpr reg1 + sext disp16

/-- The branch target `pc + sext_9(disp9)` (spec/43_conditional_branch.md R160): the base is the branch's own address. -/
def State.branchTarget (s : State) (disp9 : BitVec 9) : Word := s.pc + sext disp9

/-- The default next address (spec/10_state.md R30): past the instruction's one or two halfwords. -/
def State.defaultNext (s : State) (op : Opcode) : Word :=
  s.pc + (if op.twoHalfwords then 4#32 else 2#32)

end Sys2Proof.Machine
end

