-- ==== Sys2Proof/Machine/Flags.lean ====
section
/-! DEFINITION. The status word: pack and unpack (spec/10_state.md R42, R43), the flag computations (R44; spec/41_subtract.md R150) and the sixteen
condition predicates (spec/43_conditional_branch.md R161 to R176). -/

namespace Sys2Proof.Machine

/-- A flag at its place in the packed word. -/
def flagAt (b : Bool) (i : Nat) : Word := (BitVec.ofBool b).setWidth 32 <<< i

/-- `pack(PSW)` (spec/10_state.md R42); every position it does not name is 0 (R41). -/
def Psw.pack (p : Psw) : Word :=
  flagAt p.z 0 ||| flagAt p.s 1 ||| flagAt p.ov 2 ||| flagAt p.cy 3 |||
    flagAt p.fpr 4 ||| flagAt p.fud 5 ||| flagAt p.fov 6 ||| flagAt p.fzd 7 ||| flagAt p.fiv 8 ||| flagAt p.fro 9 |||
    flagAt p.id 12 ||| flagAt p.ae 13 ||| flagAt p.ep 14 ||| flagAt p.np 15 ||| (p.il.setWidth 32 <<< 16)

/-- `unpack(v)` (spec/10_state.md R43): bits 10, 11 and 20 to 31 of `v` are discarded. -/
def Psw.unpack (v : Word) : Psw where
  z := v.getLsbD 0
  s := v.getLsbD 1
  ov := v.getLsbD 2
  cy := v.getLsbD 3
  fpr := v.getLsbD 4
  fud := v.getLsbD 5
  fov := v.getLsbD 6
  fzd := v.getLsbD 7
  fiv := v.getLsbD 8
  fro := v.getLsbD 9
  id := v.getLsbD 12
  ae := v.getLsbD 13
  ep := v.getLsbD 14
  np := v.getLsbD 15
  il := v.extractLsb' 16 4

/-- `SetZeroSign(v)` (spec/10_state.md R44). -/
def Psw.setZeroSign (p : Psw) (v : Word) : Psw := { p with z := v == 0#32, s := v.getLsbD 31 }

/-- CY of `lhs - rhs`: the unsigned borrow (spec/41_subtract.md R150). -/
def subCarry (lhs rhs : Word) : Bool := lhs.ult rhs

/-- OV of `lhs - rhs`: bit 31 of `(lhs ^ rhs) & ~(rhs ^ result)` (spec/41_subtract.md R150). -/
def subOverflow (lhs rhs : Word) : Bool :=
  ((lhs ^^^ rhs) &&& ~~~(rhs ^^^ (lhs - rhs))).getLsbD 31

/-- The status word after SUB: Z, S, OV and CY are written, nothing else (spec/41_subtract.md R150). -/
def Psw.afterSub (p : Psw) (lhs rhs : Word) : Psw :=
  { p.setZeroSign (lhs - rhs) with ov := subOverflow lhs rhs, cy := subCarry lhs rhs }

/-- "less": S xor OV (spec/43_conditional_branch.md R167). -/
def Psw.less (p : Psw) : Bool := p.s ^^ p.ov

/-- BLE's predicate for either value of the parameter (R168): with LT = S xor OV, the answer is LT or Z, but for LT = 1
and Z = 1, where it is the parameter. -/
def Psw.lessOrEqualWith (disputed : Bool) (p : Psw) : Bool :=
  match p.less, p.z with
  | true, false => true
  | false, true => true
  | false, false => false
  | true, true => disputed

/-- BV, "overflow-set" (R161). -/
def Psw.condBv (p : Psw) : Bool := p.ov

/-- BC, "carry-set" (R162). -/
def Psw.condBc (p : Psw) : Bool := p.cy

/-- BZ, "zero-set" (R163). -/
def Psw.condBz (p : Psw) : Bool := p.z

/-- BNH, "carry-or-zero" (R164). -/
def Psw.condBnh (p : Psw) : Bool := p.cy || p.z

/-- BN, "sign-set" (R165). -/
def Psw.condBn (p : Psw) : Bool := p.s

/-- BR, "always" (R166). -/
def Psw.condBr (_ : Psw) : Bool := true

/-- BLT, "less" (R167). -/
def Psw.condBlt (p : Psw) : Bool := p.less

/-- BLE, "less-or-equal" (R168), with the open parameter. -/
def Psw.condBle (p : Psw) : Bool := p.lessOrEqualWith Config.bleDisputedTaken

/-- BNV (R169). -/
def Psw.condBnv (p : Psw) : Bool := !p.ov

/-- BNC (R170). -/
def Psw.condBnc (p : Psw) : Bool := !p.cy

/-- BNZ (R171). -/
def Psw.condBnz (p : Psw) : Bool := !p.z

/-- BH (R172). -/
def Psw.condBh (p : Psw) : Bool := !(p.cy || p.z)

/-- BP (R173). -/
def Psw.condBp (p : Psw) : Bool := !p.s

/-- NOP, "a no-branch no-op" (R174). -/
def Psw.condNop (_ : Psw) : Bool := false

/-- BGE (R175). -/
def Psw.condBge (p : Psw) : Bool := !p.less

/-- BGT (R176): the negation of BLE's predicate, the open parameter included. -/
def Psw.condBgt (p : Psw) : Bool := !p.lessOrEqualWith Config.bleDisputedTaken

end Sys2Proof.Machine
end

