-- ==== Sys2Proof/Machine/Ops.lean ====
section
/-! DEFINITION. The shared operations: the bus (spec/20_memory.md R70 to R82, R87), the commit of a step (spec/10_state.md R31, lines S7 and S8), and
entering the fault state (spec/60_exceptions.md R233), the only thing this hardware has in the place of an exception
entry; there is no exception entry and no return (R239, R240). -/

namespace Sys2Proof.Machine

/-- The bus sees one more operation. -/
def State.log (s : State) (e : BusEvent) : State := { s with busLog := s.busLog ++ [e] }

/-- The read operation of a width (R70). -/
def Width.readEvent (w : Width) (a : Word) : BusEvent :=
  match w with
  | .byte => .readByte a
  | .half => .readHalfword a
  | .word => .readWord a

/-- The write operation of a width (R70), with the value truncated to it (R81). -/
def Width.writeEvent (w : Width) (a v : Word) : BusEvent :=
  match w with
  | .byte => .writeByte a (v.setWidth 8)
  | .half => .writeHalfword a (v.setWidth 16)
  | .word => .writeWord a v

/-- What the bytes in State answer to a read, as a 32-bit value with the bits above the width zero: at an aligned address the reference bus's
answer (R87); at a misaligned one a free value, any value a general bus may give (R71, R78, log entry 4). That the reference bus itself refuses such an
access is `stepOnRefBus`. -/
def State.memoryAnswer (s : State) (w : Width) (a : Word) : Word :=
  if w.aligned a then Memory.readWidth s.mem w a else w.trunc (Config.misalignedRead s.freeCount)

/-- The answer to a read: the next one of `busAnswers`, truncated to the width (R71), else the reference bus's. -/
def State.readAnswer (s : State) (w : Width) (a : Word) : Word :=
  match s.busAnswers with
  | some v :: _ => w.trunc v
  | none :: _ => s.memoryAnswer w a
  | [] => s.memoryAnswer w a

/-- The state after a read: the operation is logged, one answer of the queue is used up. Nothing else changes, but for
the counter of free values, which a misaligned read moves on. -/
def State.afterRead (s : State) (w : Width) (a : Word) : State :=
  { s with
    busLog := s.busLog ++ [w.readEvent a]
    busAnswers := s.busAnswers.tail
    freeCount := if w.aligned a then s.freeCount else s.freeCount + 1 }

/-- The addresses a write may touch on the reference bus, first address and count: the width's bytes at an aligned
address (R87); at a misaligned one, the two aligned units that its bytes lie in (log entry 4). -/
def Width.storeSpan (w : Width) (a : Word) : Word × Nat :=
  if w.aligned a then (a, w.bytes) else (w.alignDown a, 2 * w.bytes)

/-- The bytes of the reference bus after a write (R87); at a misaligned address, which the
reference bus refuses (`stepOnRefBus`) and a general bus may answer in any way, the span holds free values (log entry 4). -/
def State.memoryAfterWrite (s : State) (w : Width) (a v : Word) : Memory :=
  if w.aligned a then Memory.writeWidth s.mem w a v
  else
    Memory.writeBytes s.mem (w.alignDown a) ((List.range (2 * w.bytes)).map (Config.misalignedWrite s.freeCount))

/-- `MemWrite(a, n, v)`: one bus write (spec/00_scope.md R12). -/
def State.afterWrite (s : State) (w : Width) (a v : Word) : State :=
  { s with
    busLog := s.busLog ++ [w.writeEvent a v]
    mem := s.memoryAfterWrite w a v
    freeCount := if w.aligned a then s.freeCount else s.freeCount + 1 }

/-- Lines S7 and S8 of the step (spec/10_state.md R31): `pc` takes the next address, then the bus is told the
cycles, once and last (spec/20_memory.md R72), and the reference bus adds them up (R87). -/
def State.commit (s : State) (op : Opcode) (taken : Bool) (npc : Word) : State :=
  { s with
    pc := npc
    busLog := s.busLog ++ [.cycles (Config.cycles op taken)]
    cycleTotal := s.cycleTotal + (Config.cycles op taken).toNat }

/-- The end of an instruction that does not transfer control: on to the default next address. -/
def State.advance (s : State) (op : Opcode) : Host.Outcome State Fault Refusal :=
  .next (s.commit op false (s.defaultNext op))

/-- The common rule of the condition-code forms (spec/43_conditional_branch.md R160). -/
def State.branch (s : State) (op : Opcode) (taken : Bool) (disp9 : BitVec 9) : Host.Outcome State Fault Refusal :=
  .next (s.commit op taken (if taken then s.branchTarget disp9 else s.defaultNext op))

/-- The common rule of the loads (spec/45_load.md R200): the address is formed before the destination is written. -/
def State.load (s : State) (op : Opcode) (w : Width) (disp16 : Halfword) (reg1 reg2 : RegIdx) :
    Host.Outcome State Fault Refusal :=
  ((s.afterRead w (s.effAddr reg1 disp16)).setGpr reg2
    (w.extend (s.readAnswer w (s.effAddr reg1 disp16)))).advance op

/-- The common rule of the stores (spec/46_store.md R215). -/
def State.store (s : State) (op : Opcode) (w : Width) (reg2 : RegIdx) (disp16 : Halfword) (reg1 : RegIdx) :
    Host.Outcome State Fault Refusal :=
  (s.afterWrite w (s.effAddr reg1 disp16) (s.gpr reg2)).advance op

/-- The start of a step: the log of bus operations is about this step alone. -/
def State.beginStep (s : State) : State := { s with busLog := [] }

/-- Entering the fault state (spec/60_exceptions.md R233): the mark is set, with its reason; every register, `pc` and the status
word stay (R232). -/
def State.enterFault (s : State) (f : Fault) : State := { s with faultMark := some f }

end Sys2Proof.Machine
end

