-- ==== Sys2Proof/Machine/Branch.lean ====
section
/-! DEFINITION. The sixteen condition-code instructions (spec/43_conditional_branch.md): each is the common rule R160 with its own predicate. They
change `pc` and nothing else of the core. -/

namespace Sys2Proof.Machine

/-- BV disp9 (R161). -/
def execBv (disp9 : BitVec 9) (s : State) : Host.Outcome State Fault Refusal := s.branch .bv s.psw.condBv disp9

/-- BC disp9 (R162). -/
def execBc (disp9 : BitVec 9) (s : State) : Host.Outcome State Fault Refusal := s.branch .bc s.psw.condBc disp9

/-- BZ disp9 (R163). -/
def execBz (disp9 : BitVec 9) (s : State) : Host.Outcome State Fault Refusal := s.branch .bz s.psw.condBz disp9

/-- BNH disp9 (R164). -/
def execBnh (disp9 : BitVec 9) (s : State) : Host.Outcome State Fault Refusal := s.branch .bnh s.psw.condBnh disp9

/-- BN disp9 (R165). -/
def execBn (disp9 : BitVec 9) (s : State) : Host.Outcome State Fault Refusal := s.branch .bn s.psw.condBn disp9

/-- BR disp9 (R166). -/
def execBr (disp9 : BitVec 9) (s : State) : Host.Outcome State Fault Refusal := s.branch .br s.psw.condBr disp9

/-- BLT disp9 (R167). -/
def execBlt (disp9 : BitVec 9) (s : State) : Host.Outcome State Fault Refusal := s.branch .blt s.psw.condBlt disp9

/-- BLE disp9 (R168). -/
def execBle (disp9 : BitVec 9) (s : State) : Host.Outcome State Fault Refusal := s.branch .ble s.psw.condBle disp9

/-- BNV disp9 (R169). -/
def execBnv (disp9 : BitVec 9) (s : State) : Host.Outcome State Fault Refusal := s.branch .bnv s.psw.condBnv disp9

/-- BNC disp9 (R170). -/
def execBnc (disp9 : BitVec 9) (s : State) : Host.Outcome State Fault Refusal := s.branch .bnc s.psw.condBnc disp9

/-- BNZ disp9 (R171). -/
def execBnz (disp9 : BitVec 9) (s : State) : Host.Outcome State Fault Refusal := s.branch .bnz s.psw.condBnz disp9

/-- BH disp9 (R172). -/
def execBh (disp9 : BitVec 9) (s : State) : Host.Outcome State Fault Refusal := s.branch .bh s.psw.condBh disp9

/-- BP disp9 (R173). -/
def execBp (disp9 : BitVec 9) (s : State) : Host.Outcome State Fault Refusal := s.branch .bp s.psw.condBp disp9

/-- NOP (R174): its displacement is ignored, it never branches. -/
def execNop (s : State) : Host.Outcome State Fault Refusal := s.branch .nop s.psw.condNop 0#9

/-- BGE disp9 (R175). -/
def execBge (disp9 : BitVec 9) (s : State) : Host.Outcome State Fault Refusal := s.branch .bge s.psw.condBge disp9

/-- BGT disp9 (R176). -/
def execBgt (disp9 : BitVec 9) (s : State) : Host.Outcome State Fault Refusal := s.branch .bgt s.psw.condBgt disp9

end Sys2Proof.Machine
end

