-- ==== Sys2Proof/Machine/Jump.lean ====
section
/-! DEFINITION. Jump (spec/42_jump.md). -/

namespace Sys2Proof.Machine

/-- JMP [reg1] (R155): the next address is all 32 bits of `x[reg1]`, unmasked; nothing is saved. -/
def execJmp (reg1 : RegIdx) (s : State) : Host.Outcome State Fault Refusal :=
  .next (s.commit .jmp false (s.gpr reg1))

end Sys2Proof.Machine
end

