-- ==== Sys2Proof/Machine/Load.lean ====
section
/-! DEFINITION. The loads (spec/45_load.md): each is the common rule R200 with its width. IN.B, IN.H and IN.W behave as the load
of their width, sign extension included (R204 to R206). -/

namespace Sys2Proof.Machine

/-- LD.B disp16[reg1], reg2 (R201). -/
def execLdB (disp16 : Halfword) (reg1 reg2 : RegIdx) (s : State) : Host.Outcome State Fault Refusal :=
  s.load .ldB .byte disp16 reg1 reg2

/-- LD.H disp16[reg1], reg2 (R202). -/
def execLdH (disp16 : Halfword) (reg1 reg2 : RegIdx) (s : State) : Host.Outcome State Fault Refusal :=
  s.load .ldH .half disp16 reg1 reg2

/-- LD.W disp16[reg1], reg2 (R203). -/
def execLdW (disp16 : Halfword) (reg1 reg2 : RegIdx) (s : State) : Host.Outcome State Fault Refusal :=
  s.load .ldW .word disp16 reg1 reg2

/-- IN.B disp16[reg1], reg2 (R204). -/
def execInB (disp16 : Halfword) (reg1 reg2 : RegIdx) (s : State) : Host.Outcome State Fault Refusal :=
  s.load .inB .byte disp16 reg1 reg2

/-- IN.H disp16[reg1], reg2 (R205). -/
def execInH (disp16 : Halfword) (reg1 reg2 : RegIdx) (s : State) : Host.Outcome State Fault Refusal :=
  s.load .inH .half disp16 reg1 reg2

/-- IN.W disp16[reg1], reg2 (R206). -/
def execInW (disp16 : Halfword) (reg1 reg2 : RegIdx) (s : State) : Host.Outcome State Fault Refusal :=
  s.load .inW .word disp16 reg1 reg2

end Sys2Proof.Machine
end

