-- ==== Sys2Proof/Machine/Move.lean ====
section
/-! DEFINITION. Move and transfer instructions (spec/40_move_transfer.md). No flag is written (spec/10_state.md R45). -/

namespace Sys2Proof.Machine

/-- MOV reg1, reg2 (R140). -/
def execMovReg (reg1 reg2 : RegIdx) (s : State) : Host.Outcome State Fault Refusal :=
  (s.setGpr reg2 (s.gpr reg1)).advance .movReg

/-- MOV imm5, reg2 (R141). -/
def execMovImm5 (imm5 : BitVec 5) (reg2 : RegIdx) (s : State) : Host.Outcome State Fault Refusal :=
  (s.setGpr reg2 (sext imm5)).advance .movImm5

/-- MOVEA imm16, reg1, reg2 (R142). -/
def execMovea (imm16 : Halfword) (reg1 reg2 : RegIdx) (s : State) : Host.Outcome State Fault Refusal :=
  (s.setGpr reg2 (s.gpr reg1 + sext imm16)).advance .movea

/-- MOVHI imm16, reg1, reg2 (R143). -/
def execMovhi (imm16 : Halfword) (reg1 reg2 : RegIdx) (s : State) : Host.Outcome State Fault Refusal :=
  (s.setGpr reg2 (s.gpr reg1 + highHalf imm16)).advance .movhi

end Sys2Proof.Machine
end

