-- ==== Sys2Proof/Machine/Store.lean ====
section
/-! DEFINITION. The stores (spec/46_store.md): each is the common rule R215 with its width. OUT.B, OUT.H and OUT.W behave as the
store of their width (R219 to R221). -/

namespace Sys2Proof.Machine

/-- ST.B reg2, disp16[reg1] (R216). -/
def execStB (reg2 : RegIdx) (disp16 : Halfword) (reg1 : RegIdx) (s : State) : Host.Outcome State Fault Refusal :=
  s.store .stB .byte reg2 disp16 reg1

/-- ST.H reg2, disp16[reg1] (R217). -/
def execStH (reg2 : RegIdx) (disp16 : Halfword) (reg1 : RegIdx) (s : State) : Host.Outcome State Fault Refusal :=
  s.store .stH .half reg2 disp16 reg1

/-- ST.W reg2, disp16[reg1] (R218). -/
def execStW (reg2 : RegIdx) (disp16 : Halfword) (reg1 : RegIdx) (s : State) : Host.Outcome State Fault Refusal :=
  s.store .stW .word reg2 disp16 reg1

/-- OUT.B reg2, disp16[reg1] (R219). -/
def execOutB (reg2 : RegIdx) (disp16 : Halfword) (reg1 : RegIdx) (s : State) : Host.Outcome State Fault Refusal :=
  s.store .outB .byte reg2 disp16 reg1

/-- OUT.H reg2, disp16[reg1] (R220). -/
def execOutH (reg2 : RegIdx) (disp16 : Halfword) (reg1 : RegIdx) (s : State) : Host.Outcome State Fault Refusal :=
  s.store .outH .half reg2 disp16 reg1

/-- OUT.W reg2, disp16[reg1] (R221). -/
def execOutW (reg2 : RegIdx) (disp16 : Halfword) (reg1 : RegIdx) (s : State) : Host.Outcome State Fault Refusal :=
  s.store .outW .word reg2 disp16 reg1

end Sys2Proof.Machine
end

