-- ==== Sys2Proof/Machine/Subtract.lean ====
section
/-! DEFINITION. Subtract (spec/41_subtract.md). -/

namespace Sys2Proof.Machine

/-- SUB reg1, reg2 (R150): `x[reg2] - x[reg1]` goes to `x[reg2]`, and Z, S, OV and CY are written, also where `reg2` is 0. -/
def execSub (reg1 reg2 : RegIdx) (s : State) : Host.Outcome State Fault Refusal :=
  State.advance
    { s.setGpr reg2 (s.gpr reg2 - s.gpr reg1) with psw := s.psw.afterSub (s.gpr reg2) (s.gpr reg1) } .sub

end Sys2Proof.Machine
end

