-- ==== Sys2Proof/Machine/System.lean ====
section
/-! DEFINITION. System instructions (spec/44_system.md). None needs a privilege: the core has one mode (spec/60_exceptions.md R241). -/

namespace Sys2Proof.Machine

/-- LDSR reg2, regID: with the status word's selector all fields of the PSW are written at once (R190); with any other,
the fault of R191. -/
def execLdsr (reg2 : RegIdx) (regID : BitVec 5) (s : State) : Host.Outcome State Fault Refusal :=
  if regID = Config.pswSysregId then
    State.advance { s with psw := Psw.unpack (s.gpr reg2) } .ldsr
  else .fault (.unimplementedSystemRegister s.pc regID)

/-- CLI (R192): ID is cleared, no other field changes. -/
def execCli (s : State) : Host.Outcome State Fault Refusal :=
  State.advance { s with psw := { s.psw with id := false } } .cli

/-- SEI (R193): ID is set, no other field changes. -/
def execSei (s : State) : Host.Outcome State Fault Refusal :=
  State.advance { s with psw := { s.psw with id := true } } .sei

end Sys2Proof.Machine
end

