-- ==== Sys2Proof/Machine/Dispatch.lean ====
section
/-! DEFINITION. The dispatcher (spec/10_state.md R31 line S6): one arm per instruction of the opcode table. -/

namespace Sys2Proof.Machine

def exec (i : Instr) (s : State) : Host.Outcome State Fault Refusal :=
  match i with
  | .movReg a b => Sys2Proof.Machine.execMovReg a b s
  | .sub a b => Sys2Proof.Machine.execSub a b s
  | .jmp a => Sys2Proof.Machine.execJmp a s
  | .movImm5 a b => Sys2Proof.Machine.execMovImm5 a b s
  | .cli => Sys2Proof.Machine.execCli s
  | .ldsr a b => Sys2Proof.Machine.execLdsr a b s
  | .sei => Sys2Proof.Machine.execSei s
  | .bv d => Sys2Proof.Machine.execBv d s
  | .bc d => Sys2Proof.Machine.execBc d s
  | .bz d => Sys2Proof.Machine.execBz d s
  | .bnh d => Sys2Proof.Machine.execBnh d s
  | .bn d => Sys2Proof.Machine.execBn d s
  | .br d => Sys2Proof.Machine.execBr d s
  | .blt d => Sys2Proof.Machine.execBlt d s
  | .ble d => Sys2Proof.Machine.execBle d s
  | .bnv d => Sys2Proof.Machine.execBnv d s
  | .bnc d => Sys2Proof.Machine.execBnc d s
  | .bnz d => Sys2Proof.Machine.execBnz d s
  | .bh d => Sys2Proof.Machine.execBh d s
  | .bp d => Sys2Proof.Machine.execBp d s
  | .nop => Sys2Proof.Machine.execNop s
  | .bge d => Sys2Proof.Machine.execBge d s
  | .bgt d => Sys2Proof.Machine.execBgt d s
  | .movea a b c => Sys2Proof.Machine.execMovea a b c s
  | .movhi a b c => Sys2Proof.Machine.execMovhi a b c s
  | .ldB a b c => Sys2Proof.Machine.execLdB a b c s
  | .ldH a b c => Sys2Proof.Machine.execLdH a b c s
  | .ldW a b c => Sys2Proof.Machine.execLdW a b c s
  | .stB a b c => Sys2Proof.Machine.execStB a b c s
  | .stH a b c => Sys2Proof.Machine.execStH a b c s
  | .stW a b c => Sys2Proof.Machine.execStW a b c s
  | .inB a b c => Sys2Proof.Machine.execInB a b c s
  | .inH a b c => Sys2Proof.Machine.execInH a b c s
  | .inW a b c => Sys2Proof.Machine.execInW a b c s
  | .outB a b c => Sys2Proof.Machine.execOutB a b c s
  | .outH a b c => Sys2Proof.Machine.execOutH a b c s
  | .outW a b c => Sys2Proof.Machine.execOutW a b c s

end Sys2Proof.Machine
end

