-- ==== Sys2Proof/Machine/Fetch.lean ====
section
/-! DEFINITION. Lines S1 to S4 of the step (spec/10_state.md R31): the alignment check of `pc`, the fetch of one or two halfwords, and
classification. -/

namespace Sys2Proof.Machine

/-- What the fetch comes to: a fault, or the instruction to execute; each with the state the fetch leaves. -/
inductive Fetched where
  | stop (f : Fault) (s : State)
  | ready (i : Instr) (s : State)
deriving DecidableEq, Repr

/-- The halfword that a fetch at an address is answered (spec/20_memory.md R70, R80). -/
def State.fetchAnswer (s : State) (a : Word) : Halfword := (s.readAnswer .half a).setWidth 16

/-- Lines S1 to S4 of R31. The second halfword is fetched for formats V and VI alone (S4). -/
def State.fetch (s : State) : Fetched :=
  if s.pc.getLsbD 0 then .stop (.misalignedPc s.pc) s.beginStep
  else
    let s1 := s.beginStep.afterRead .half s.pc
    let hw1 := s.beginStep.fetchAnswer s.pc
    match classify hw1 with
    | none => .stop (.unrecognizedOpcode s.pc hw1) s1
    | some op =>
      if op.twoHalfwords then
        .ready (op.extract hw1 (s1.fetchAnswer (s.pc + 2#32))) (s1.afterRead .half (s.pc + 2#32))
      else .ready (op.extract hw1 0#16) s1

/-- How many halfwords a fetch takes from a stream of bytes. -/
def fetchCount (bytes : List Byte) : Nat :=
  match decodeBytes bytes with
  | .instr i _ => if i.opcode.twoHalfwords then 2 else 1
  | .rejected _ => 1

/-- The bytes of an opcode-table word placed on the reference bus at `pc`, where the next fetch reads them: answers that
are queued from outside are put behind the fetch. -/
def State.placeAtPc (s : State) (bytes : List Byte) : State :=
  { s with
    mem := Memory.writeBytes s.mem s.pc bytes
    busAnswers :=
      match s.busAnswers with
      | [] => []
      | a :: rest => List.replicate (fetchCount bytes) none ++ a :: rest }

end Sys2Proof.Machine
end

