-- ==== Sys2Proof/Machine/Step.lean ====
section
/-! DEFINITION. The step (spec/10_state.md R31). -/

namespace Sys2Proof.Machine

/-- One step: none exists while the fault mark is set (S0; spec/60_exceptions.md R233); else fetch and decode (S1 to S4), then execute and commit
(S5 to S8, in the instruction's meaning). -/
def step (s : State) : Host.Outcome State Fault Refusal :=
  match s.faultMark with
  | some f => .refused (.faultMarkSet f)
  | none =>
    match s.fetch with
    | .stop f _ => .fault f
    | .ready i s1 => exec i s1

/-- `s` with an opcode-table word stored where the next step fetches (log entry 3). -/
def State.withFetchWord (s : State) (nbits w : Nat) : State := s.placeAtPc (tableWordBytes nbits w)

end Sys2Proof.Machine
end

