-- ==== Sys2Proof/Machine/Core.lean ====
section
/-! DEFINITION. The machine as the host reads it. DESIGN CHOICE (log entry 12): a run over it is made of steps alone, so a statement about such a run has the
premise that between its steps the host calls neither `set_reg_psw` nor reset (spec/70_reset_and_hazards.md R266, which says that this errs toward
proving). -/

def Sys2Proof.core : Host.Core := { State := Sys2Proof.Machine.State, Fault := Sys2Proof.Machine.Fault, Refusal := Sys2Proof.Machine.Refusal, step := Sys2Proof.Machine.step, reset := Sys2Proof.Machine.State.reset }
end

