-- ==== Sys2Proof/Machine/RefBus.lean ====
section
/-! DEFINITION. A step under the reference bus of spec/20_memory.md R87, with its `requires` clauses. The core's own step (`step`) checks and refuses no
data address (R71, R78; spec/60_exceptions.md R230) and runs on any bus; the reference bus, which is no part of the hardware, answers from memory alone and
refuses a misaligned access, and a run on it is stuck there. -/

namespace Sys2Proof.Machine

/-- The `requires` clause of an operation of the reference bus (R87). -/
def BusEvent.meetsRequires : BusEvent → Bool
  | .readByte _ => true
  | .readHalfword a => Width.half.aligned a
  | .readWord a => Width.word.aligned a
  | .writeByte _ _ => true
  | .writeHalfword a _ => Width.half.aligned a
  | .writeWord a _ => Width.word.aligned a
  | .cycles _ => true

/-- The first operation of a list that the reference bus refuses. -/
def firstRefused (l : List BusEvent) : Option BusEvent := l.find? (fun e => !e.meetsRequires)

/-- One step on the reference bus (R87): every answer is memory's, none comes from outside; where the step would issue an access that does not meet its
`requires`, there is no answer and no next state. -/
def stepOnRefBus (s : State) : Host.Outcome State Fault Refusal :=
  match step { s with busAnswers := [] } with
  | .next t =>
    match firstRefused t.busLog with
    | some e => .refused (.referenceBusRefuses e)
    | none => .next t
  | .fault f => .fault f
  | .refused r => .refused r

end Sys2Proof.Machine
end

