-- ==== Sys2Proof/Machine/HostPort.lean ====
section
/-! DEFINITION. What the host can do to the core, between steps (spec/70_reset_and_hazards.md R266; spec/10_state.md R48; spec/60_exceptions.md R238): six operations and no
other. -/

namespace Sys2Proof.Machine

/-- The host's operations (R266). -/
inductive HostOp where
  | reset
  | step
  | regPc
  | regGpr (i : RegIdx)
  | regPsw
  | setRegPsw (v : Word)
deriving DecidableEq, Repr

/-- The state that a call of `step` leaves, faulting steps included (spec/60_exceptions.md R232, R233): a fault sets the mark, the bus
operations issued before it stand, and nothing else of the step has happened. With the mark set there is no step. -/
def State.afterStep (s : State) : State :=
  match s.faultMark with
  | some _ => s
  | none =>
    match s.fetch with
    | .stop f s1 => s1.enterFault f
    | .ready i s1 =>
      match exec i s1 with
      | .next t => t
      | .fault f => s1.enterFault f
      | .refused _ => s1

/-- Reset (spec/70_reset_and_hazards.md R260, R261): the core takes its reset values and the mark is cleared; the bus is not the core's (spec/10_state.md R51)
and stays, with no bus operation issued. -/
def State.resetCore (s : State) : State :=
  { s with
    regs := State.reset.regs
    pc := State.reset.pc
    psw := State.reset.psw
    faultMark := none
    busLog := [] }

/-- `set_reg_psw(v)` (spec/10_state.md R48). -/
def State.setRegPsw (s : State) (v : Word) : State := { s with psw := Psw.unpack v }

/-- One host operation: the state it leaves, and the value it returns where it returns one. -/
def hostCall (op : HostOp) (s : State) : State × Option Word :=
  match op with
  | .reset => (s.resetCore, none)
  | .step => (s.afterStep, none)
  | .regPc => (s, some s.pc)
  | .regGpr i => (s, some (s.gpr i))
  | .regPsw => (s, some s.psw.pack)
  | .setRegPsw v => (s.setRegPsw v, none)

end Sys2Proof.Machine
end

