-- ==== Sys2Proof/Safety.lean ====
section
/-! DEFINITION. What claims call a safe run: what software must do for the rules to give it a meaning
(spec/70_reset_and_hazards.md R268), the shape of the bus operations of a step (spec/20_memory.md R74, R79), and the model's invariant. -/

namespace Sys2Proof.Machine

/-- What R268 (a) and (c) ask of the instruction about to execute: an even displacement where a condition-code form is taken, an
even target of JMP, LDSR with the status word's selector. -/
def obligationsMet (i : Instr) (s : State) : Bool :=
  match i with
  | .jmp r => !(s.gpr r).getLsbD 0
  | .ldsr _ k => k == Config.pswSysregId
  | .bv d => !s.psw.condBv || !d.getLsbD 0
  | .bc d => !s.psw.condBc || !d.getLsbD 0
  | .bz d => !s.psw.condBz || !d.getLsbD 0
  | .bnh d => !s.psw.condBnh || !d.getLsbD 0
  | .bn d => !s.psw.condBn || !d.getLsbD 0
  | .br d => !d.getLsbD 0
  | .blt d => !s.psw.condBlt || !d.getLsbD 0
  | .ble d => !s.psw.condBle || !d.getLsbD 0
  | .bnv d => !s.psw.condBnv || !d.getLsbD 0
  | .bnc d => !s.psw.condBnc || !d.getLsbD 0
  | .bnz d => !s.psw.condBnz || !d.getLsbD 0
  | .bh d => !s.psw.condBh || !d.getLsbD 0
  | .bp d => !s.psw.condBp || !d.getLsbD 0
  | .bge d => !s.psw.condBge || !d.getLsbD 0
  | .bgt d => !s.psw.condBgt || !d.getLsbD 0
  | _ => true

/-- A data read or write, not the cycle report. -/
def BusEvent.isAccess : BusEvent → Bool
  | .cycles _ => false
  | _ => true

/-- The bus operations a step may have issued (spec/20_memory.md R72, R74, R79): none, or one to three accesses and after them at
most one more operation, the cycle report. -/
def busLogShape (l : List BusEvent) : Bool :=
  l.isEmpty ||
    (decide (1 ≤ (l.takeWhile BusEvent.isAccess).length) && decide ((l.takeWhile BusEvent.isAccess).length ≤ 3) &&
      decide ((l.dropWhile BusEvent.isAccess).length ≤ 1))

/-- The invariant: memory in canonical form, and the log of bus operations in the shape of one step. -/
def State.Inv (s : State) : Prop := Memory.wf s.mem = true ∧ busLogShape s.busLog = true

end Sys2Proof.Machine
end

