-- ==== Sys2Proof/Certificates/Slice0/Obligations.lean ====
section
/-! DEFINITION. The statements for the provers, with the vocabulary they are written in. Each docstring names the rule of spec/ it
formalises. Results are stated in the spec's numbers (Int and Nat readings of the words), not in the model's own
operations. -/

open Sys2Proof Sys2Proof.Machine

namespace Sys2Proof.Machine

/-! ### Vocabulary -/

/-- The value written goes to the destination, or nowhere where it is `r0`; every other register stays. -/
def WritesRegister (s t : State) (dest : RegIdx) (v : Word) : Prop :=
  t.gpr dest = (if dest = 0#5 then 0#32 else v) ∧ ∀ j, j ≠ dest → t.gpr j = s.gpr j

/-- Every register stays. -/
def KeepsRegisters (s t : State) : Prop := ∀ j, t.gpr j = s.gpr j

/-- Every byte of memory reads as before. -/
def KeepsMemory (s t : State) : Prop := ∀ a : Word, Memory.readByte t.mem a = Memory.readByte s.mem a

/-- The bus is asked for no data: memory, the queued answers and the counter of free values stay. -/
def KeepsBus (s t : State) : Prop :=
  KeepsMemory s t ∧ t.busAnswers = s.busAnswers ∧ t.freeCount = s.freeCount

/-- The instruction completes: a next state, at the given next address, the fault mark as it was, its bus operations `events` issued in order and then the
cycle report, once and last; and `P` holds of the next state. -/
def Completes (o : Host.Outcome State Fault Refusal) (s : State) (op : Opcode) (taken : Bool) (npc : Word)
    (events : List BusEvent) (P : State → Prop) : Prop :=
  ∃ t, o = .next t ∧ t.pc = npc ∧ t.faultMark = s.faultMark ∧
    t.busLog = s.busLog ++ events ++ [.cycles (Config.cycles op taken)] ∧
    t.cycleTotal = s.cycleTotal + (Config.cycles op taken).toNat ∧ P t

/-- A halfword of formats I and II, and the first halfword of V and VI, as the rules of spec/ write it: `base | reg2 << 5 | low5`. -/
def fieldWord (base : Halfword) (reg2 low5 : BitVec 5) : Halfword :=
  base ||| reg2.setWidth 16 <<< 5 ||| low5.setWidth 16

/-- A halfword of format III, as spec/43_conditional_branch.md R160 writes it: `0x8000 | cond << 9 | disp9`. -/
def condWord (cond : BitVec 4) (disp9 : BitVec 9) : Halfword :=
  0x8000#16 ||| cond.setWidth 16 <<< 9 ||| disp9.setWidth 16

/-- These halfwords are the instruction, whatever follows; and a step that comes to execute it has issued exactly that many fetches, from `pc` up. -/
def Encodes (hws : List Halfword) (i : Instr) : Prop :=
  (∀ rest, decode (hws ++ rest) = .instr i rest) ∧
  ∀ s s1 : State, s.fetch = .ready i s1 →
    s1.busLog = (List.range hws.length).map (fun k => BusEvent.readHalfword (s.pc + BitVec.ofNat 32 (2 * k)))

/-- `base + d` for a signed displacement, modulo 2^32. -/
def displaced {n : Nat} (base : Word) (d : BitVec n) : Word := BitVec.ofInt 32 ((base.toNat : Int) + d.toInt)

/-- A condition-code form with predicate value `p` (spec/43_conditional_branch.md R160): it completes at the target or past itself, and changes
`pc` alone. -/
def BranchesOn (i : Instr) (d : BitVec 9) (s : State) (p : Bool) : Prop :=
  Completes (exec i s) s i.opcode p (if p then displaced s.pc d else s.pc + 2#32) []
    (fun t => KeepsRegisters s t ∧ t.psw = s.psw ∧ KeepsBus s t)

/-- A load of width `w` (spec/45_load.md R200): one bus read at the effective address, the extended answer `v` to the destination, nothing else. -/
def LoadsValue (i : Instr) (s : State) (event : BusEvent) (r2 : RegIdx) (v : Word) : Prop :=
  Completes (exec i s) s i.opcode false (s.pc + 4#32) [event]
    (fun t => WritesRegister s t r2 v ∧ t.psw = s.psw ∧ KeepsMemory s t ∧ t.busAnswers = s.busAnswers.tail)

/-- A store (spec/46_store.md R215): one bus write, no register and no flag. -/
def StoresValue (i : Instr) (s : State) (event : BusEvent) : Prop :=
  Completes (exec i s) s i.opcode false (s.pc + 4#32) [event]
    (fun t => KeepsRegisters s t ∧ t.psw = s.psw ∧ t.busAnswers = s.busAnswers)

/-- The instruction completes, and every byte outside the span that its bus write may touch reads as before. -/
def WritesWithin (i : Instr) (s : State) (span : Word × Nat) : Prop :=
  ∃ t, exec i s = .next t ∧
    ∀ a : Word, (∀ k : Nat, k < span.2 → a ≠ span.1 + BitVec.ofNat 32 k) →
      Memory.readByte t.mem a = Memory.readByte s.mem a

/-- After `o` the bytes from `a` up are the first `n` bytes of `v`, least significant first. -/
def LeavesBytes (o : Host.Outcome State Fault Refusal) (a v : Word) (n : Nat) : Prop :=
  ∃ t, o = .next t ∧ ∀ k : Nat, k < n → Memory.readByte t.mem (a + BitVec.ofNat 32 k) = v.extractLsb' (8 * k) 8

/-- The destination register of an instruction (spec/10_state.md R26, column "writes"). -/
def destination : Instr → Option RegIdx
  | .movReg _ r2 | .movImm5 _ r2 | .sub _ r2 => some r2
  | .movea _ _ r2 | .movhi _ _ r2 => some r2
  | .ldB _ _ r2 | .ldH _ _ r2 | .ldW _ _ r2 => some r2
  | .inB _ _ r2 | .inH _ _ r2 | .inW _ _ r2 => some r2
  | .jmp _ | .cli | .sei | .ldsr _ _ => none
  | .bv _ | .bc _ | .bz _ | .bnh _ | .bn _ | .br _ | .blt _ | .ble _ => none
  | .bnv _ | .bnc _ | .bnz _ | .bh _ | .bp _ | .nop | .bge _ | .bgt _ => none
  | .stB _ _ _ | .stH _ _ _ | .stW _ _ _ | .outB _ _ _ | .outH _ _ _ | .outW _ _ _ => none

/-- Whether a condition-code form is taken (spec/43_conditional_branch.md R161 to R176); false for every other instruction (spec/10_state.md R31 line
S5). -/
def takenOf (i : Instr) (p : Psw) : Bool :=
  match i with
  | .bv _ => p.ov
  | .bc _ => p.cy
  | .bz _ => p.z
  | .bnh _ => p.cy || p.z
  | .bn _ => p.s
  | .br _ => true
  | .blt _ => p.s != p.ov
  | .ble _ => if (p.s != p.ov) && p.z then Config.bleDisputedTaken else (p.s != p.ov) || p.z
  | .bnv _ => !p.ov
  | .bnc _ => !p.cy
  | .bnz _ => !p.z
  | .bh _ => !(p.cy || p.z)
  | .bp _ => !p.s
  | .bge _ => p.s == p.ov
  | .bgt _ => !(if (p.s != p.ov) && p.z then Config.bleDisputedTaken else (p.s != p.ov) || p.z)
  | _ => false

/-- The one data access of an instruction (spec/20_memory.md R74), with the value a write carries. -/
def dataAccess (i : Instr) (s : State) : List BusEvent :=
  match i with
  | .ldB d r1 _ | .inB d r1 _ => [.readByte (displaced (s.gpr r1) d)]
  | .ldH d r1 _ | .inH d r1 _ => [.readHalfword (displaced (s.gpr r1) d)]
  | .ldW d r1 _ | .inW d r1 _ => [.readWord (displaced (s.gpr r1) d)]
  | .stB r2 d r1 | .outB r2 d r1 => [.writeByte (displaced (s.gpr r1) d) ((s.gpr r2).extractLsb' 0 8)]
  | .stH r2 d r1 | .outH r2 d r1 => [.writeHalfword (displaced (s.gpr r1) d) ((s.gpr r2).extractLsb' 0 16)]
  | .stW r2 d r1 | .outW r2 d r1 => [.writeWord (displaced (s.gpr r1) d) (s.gpr r2)]
  | _ => []

/-- The fetches of an instruction at `pc` (spec/20_memory.md R74). -/
def fetchEvents (i : Instr) (pc : Word) : List BusEvent :=
  if i.opcode.twoHalfwords then [.readHalfword pc, .readHalfword (pc + 2#32)] else [.readHalfword pc]

/-- The sixteen outcomes in the order of the columns of spec/43_conditional_branch.md R177, for a value of the parameter. -/
def conditionOutcomes (disputed : Bool) (p : Psw) : List Bool :=
  [p.condBv, p.condBc, p.condBz, p.condBnh, p.condBn, p.condBr, p.condBlt, p.lessOrEqualWith disputed,
    p.condBnv, p.condBnc, p.condBnz, p.condBh, p.condBp, p.condNop, p.condBge, !p.lessOrEqualWith disputed]

/-- The rows of R177, each read from left to right as a 16-digit binary number. -/
def conditionTable : List (BitVec 16) :=
  [0b0000010011111011#16, 0b0011010111001010#16, 0b0000111111110000#16, 0b0011111111000000#16] ++
  [0b1000011101111000#16, 0b1011011101001000#16, 0b1000110001110011#16, 0b1011110101000010#16] ++
  [0b0101010010101011#16, 0b0111010110001010#16, 0b0101111110100000#16, 0b0111111110000000#16] ++
  [0b1101011100101000#16, 0b1111011100001000#16, 0b1101110000100011#16, 0b1111110100000010#16]

/-- Two states that differ, if at all, in the PSW fields that nothing in the core reads (spec/60_exceptions.md R236; spec/10_state.md R40): ID, AE, EP,
NP, IL and the six FP flags. -/
def AgreeButControlBits (s s' : State) : Prop :=
  s' = { s with psw := s'.psw } ∧ s'.psw.z = s.psw.z ∧ s'.psw.s = s.psw.s ∧ s'.psw.ov = s.psw.ov ∧ s'.psw.cy = s.psw.cy

/-- Two outcomes that agree the same way. -/
def OutcomesAgree : Host.Outcome State Fault Refusal → Host.Outcome State Fault Refusal → Prop
  | .next t, .next t' => AgreeButControlBits t t'
  | .fault f, .fault f' => f = f'
  | .refused r, .refused r' => r = r'
  | _, _ => False

/-- Two outcomes that are the same but for the reported cycle count. -/
def SameButCycles : Host.Outcome State Fault Refusal → Host.Outcome State Fault Refusal → Prop
  | .next t, .next t' =>
    { t with busLog := t.busLog.dropLast, cycleTotal := 0 } = { t' with busLog := t'.busLog.dropLast, cycleTotal := 0 }
  | _, _ => False

/-- The unassigned values of `opc6` (spec/30_encoding.md R112). -/
def unassignedOpc6 : List Nat :=
  [0x01, 0x03, 0x04, 0x05, 0x07, 0x08, 0x09, 0x0A, 0x0B, 0x0C, 0x0D, 0x0E, 0x0F, 0x11, 0x12, 0x13, 0x14, 0x15] ++
  [0x17, 0x18, 0x19, 0x1A, 0x1B, 0x1D, 0x1F, 0x29, 0x2A, 0x2B, 0x2C, 0x2D, 0x2E, 0x32, 0x36, 0x3A, 0x3E]

/-- The core's own state is the same: registers, `pc`, status word. -/
def SameCore (s t : State) : Prop := KeepsRegisters s t ∧ t.pc = s.pc ∧ t.psw = s.psw

end Sys2Proof.Machine

/-! ### Encoding -/

/-- Words written out from the spec's encodings decode to the instructions they stand for (spec/30_encoding.md R111 and the examples of R140 to R221). -/
def Obligations.SpecExampleWordsDecode : Prop :=
  decode [0x0181#16] = .instr (.movReg 1#5 12#5) [] ∧
  decode [0x0822#16] = .instr (.sub 2#5 1#5) [] ∧
  decode [0x1BEB#16] = .instr (.jmp 11#5) [] ∧
  decode [0x403B#16] = .instr (.movImm5 0x1B#5 1#5) [] ∧
  decode [0x7025#16] = .instr (.ldsr 1#5 5#5) [] ∧
  decode [0x5BFF#16] = .instr .cli [] ∧
  decode [0x7800#16] = .instr .sei [] ∧
  decode [0x95FE#16] = .instr (.bnz 0x1FE#9) [] ∧
  decode [0xA0A5#16, 0x4321#16] = .instr (.movea 0x4321#16 5#5 5#5) [] ∧
  decode [0xC104#16, 0x0013#16] = .instr (.ldB 0x0013#16 4#5 8#5) [] ∧
  decode [0xDCA4#16, 0x0010#16] = .instr (.stW 5#5 0x0010#16 4#5) [] ∧
  decode [0x0400#16] = .rejected (.unrecognized 0x0400#16)

/-- Decoding what `encode` gives, whatever follows it, gives the instruction back, with every operand at every value. -/
def Obligations.DecodeOfEncodeIsTheInstruction : Prop :=
  ∀ (i : Instr) (rest : List Halfword), i.wellFormed = true ∧ decode (encode i ++ rest) = .instr i rest

/-- The same on the bytes of the reference bus. -/
def Obligations.DecodeBytesOfEncodeIsTheInstruction : Prop :=
  ∀ (i : Instr) (rest : List Byte), decodeBytes (halfwordBytes (encode i) ++ rest) = .instr i rest

/-- Encoding what a recognized word decodes to gives the word back, with 0 in the ignored bits and no other bit changed (spec/30_encoding.md
R113). -/
def Obligations.EncodeOfDecodeKeepsUsedBits : Prop :=
  ∀ (hw1 hw2 : Halfword) (op : Opcode), classify hw1 = some op →
    encode (op.extract hw1 hw2) = (hw1 &&& op.usedBits) :: (if op.twoHalfwords then [hw2] else [])

/-- A first halfword is unrecognized exactly where `opc6` is one of the 35 values of spec/30_encoding.md R112. -/
def Obligations.UnrecognizedIsTheListedValues : Prop :=
  unassignedOpc6.length = 35 ∧
  ∀ hw1 : Halfword, classify hw1 = none ↔ (hw1.extractLsb' 10 6).toNat ∈ unassignedOpc6

/-- Classification agrees with the match and mask columns of spec/30_encoding.md R111, and no two rows overlap (R122). -/
def Obligations.ClassifyAgreesWithMatchAndMask : Prop :=
  (∀ (hw1 : Halfword) (op : Opcode), classify hw1 = some op ↔
    ∃ m mask, (op, m, mask) ∈ opcodeTable ∧ hw1 &&& mask = m) ∧
  opcodeTable.length = 37 ∧
  ∀ (hw1 : Halfword) (r r' : Opcode × Halfword × Halfword), r ∈ opcodeTable → r' ∈ opcodeTable →
    hw1 &&& r.2.2 = r.2.1 → hw1 &&& r'.2.2 = r'.2.1 → r = r'

/-- A recognized instruction is two halfwords exactly where `opc6` is at least 0x28, that is where the top three bits are 101, 110 or 111
(spec/30_encoding.md R106). -/
def Obligations.TwoHalfwordsFromTheTopBits : Prop :=
  ∀ (hw1 : Halfword) (op : Opcode), classify hw1 = some op →
    (op.twoHalfwords = true ↔ 0x28 ≤ (hw1.extractLsb' 10 6).toNat) ∧
    (op.twoHalfwords = true ↔ (hw1.extractLsb' 13 3).toNat ∈ [5, 6, 7])

/-! ### Registers and the status word -/

/-- Reading general registers after a write (spec/10_state.md R24, R25): index 0 reads 0 and discards writes, any other index holds
what was written, and the write touches nothing else. -/
def Obligations.RegisterReadAfterWrite : Prop :=
  ∀ (s : State) (i j : RegIdx) (v : Word),
    s.gpr 0#5 = 0#32 ∧
    (s.setGpr i v).gpr j = (if j = i ∧ i ≠ 0#5 then v else s.gpr j) ∧
    s.setGpr i v = { s with regs := (s.setGpr i v).regs } ∧ s.setGpr 0#5 v = s

/-- `PSW <- unpack(v)` (spec/10_state.md R43): each field takes its bit, packing gives `v & 0x000FF3FF`, and every value of every field is kept. -/
def Obligations.StatusWordUnpacks : Prop :=
  (∀ v : Word,
    (Psw.unpack v).z = v[0] ∧ (Psw.unpack v).s = v[1] ∧ (Psw.unpack v).ov = v[2] ∧ (Psw.unpack v).cy = v[3] ∧
    (Psw.unpack v).fpr = v[4] ∧ (Psw.unpack v).fud = v[5] ∧ (Psw.unpack v).fov = v[6] ∧ (Psw.unpack v).fzd = v[7] ∧
    (Psw.unpack v).fiv = v[8] ∧ (Psw.unpack v).fro = v[9] ∧ (Psw.unpack v).id = v[12] ∧ (Psw.unpack v).ae = v[13] ∧
    (Psw.unpack v).ep = v[14] ∧ (Psw.unpack v).np = v[15] ∧ (Psw.unpack v).il.toNat = v.toNat / 2 ^ 16 % 16 ∧
    (Psw.unpack v).pack = v &&& 0x000FF3FF#32) ∧
  ∀ p : Psw, Psw.unpack p.pack = p

/-- The packed status word is the sum of its fields at their places (spec/10_state.md R42). -/
def Obligations.StatusWordPacks : Prop :=
  ∀ p : Psw, p.pack.toNat =
    p.z.toNat + 2 * p.s.toNat + 4 * p.ov.toNat + 8 * p.cy.toNat + 16 * p.fpr.toNat + 32 * p.fud.toNat +
      64 * p.fov.toNat + 128 * p.fzd.toNat + 256 * p.fiv.toNat + 512 * p.fro.toNat + 2 ^ 12 * p.id.toNat +
      2 ^ 13 * p.ae.toNat + 2 ^ 14 * p.ep.toNat + 2 ^ 15 * p.np.toNat + 2 ^ 16 * p.il.toNat

/-- Bits 10, 11 and 20 to 31 read zero, and there is no storage but what a read shows (spec/10_state.md R41). -/
def Obligations.AbsentStatusBitsReadZero : Prop :=
  (∀ (p : Psw) (i : Nat), i = 10 ∨ i = 11 ∨ 20 ≤ i → p.pack.getLsbD i = false) ∧
  ∀ p q : Psw, p.pack = q.pack → p = q

/-- `SetZeroSign(v)` (spec/10_state.md R44). -/
def Obligations.SetZeroSignWritesZAndS : Prop :=
  ∀ (p : Psw) (v : Word), p.setZeroSign v = { p with z := decide (v.toNat = 0), s := decide (v.toInt < 0) }

/-- What reset leaves (spec/70_reset_and_hazards.md R260): every register, `pc`, the packed status word and the fault mark. -/
def Obligations.ResetLeavesTheStatedValues : Prop :=
  (∀ i : RegIdx, State.reset.gpr i = 0#32) ∧ State.reset.pc = 0xFFFFFFF0#32 ∧
  State.reset.psw.pack = 0x00008000#32 ∧ State.reset.faultMark = none

/-! ### Move and transfer -/

/-- MOV reg1, reg2 (spec/40_move_transfer.md R140). -/
def Obligations.MovRegisterCopies : Prop :=
  ∀ (a b : RegIdx) (s : State),
    Encodes [fieldWord 0x0000#16 b a] (.movReg a b) ∧
    Completes (exec (.movReg a b) s) s .movReg false (s.pc + 2#32) []
      (fun t => WritesRegister s t b (s.gpr a) ∧ t.psw = s.psw ∧ KeepsBus s t)

/-- MOV imm5, reg2 (R141): the constant is the signed value of the field. -/
def Obligations.MovImmediateSignExtends : Prop :=
  ∀ (imm5 : BitVec 5) (b : RegIdx) (s : State),
    Encodes [fieldWord 0x4000#16 b imm5] (.movImm5 imm5 b) ∧
    Completes (exec (.movImm5 imm5 b) s) s .movImm5 false (s.pc + 2#32) []
      (fun t => WritesRegister s t b (BitVec.ofInt 32 imm5.toInt) ∧ t.psw = s.psw ∧ KeepsBus s t)

/-- MOVEA imm16, reg1, reg2 (R142): the sum wraps and no flag is written. -/
def Obligations.MoveaAddsSignedImmediate : Prop :=
  ∀ (imm16 : Halfword) (a b : RegIdx) (s : State),
    Encodes [fieldWord 0xA000#16 b a, imm16] (.movea imm16 a b) ∧
    Completes (exec (.movea imm16 a b) s) s .movea false (s.pc + 4#32) []
      (fun t => WritesRegister s t b (BitVec.ofInt 32 ((s.gpr a).toNat + imm16.toInt)) ∧ t.psw = s.psw ∧ KeepsBus s t)

/-- MOVHI imm16, reg1, reg2 (R143): the addend is `imm16 * 65536`. -/
def Obligations.MovhiAddsShiftedImmediate : Prop :=
  ∀ (imm16 : Halfword) (a b : RegIdx) (s : State),
    Encodes [fieldWord 0xBC00#16 b a, imm16] (.movhi imm16 a b) ∧
    Completes (exec (.movhi imm16 a b) s) s .movhi false (s.pc + 4#32) []
      (fun t => WritesRegister s t b (BitVec.ofNat 32 ((s.gpr a).toNat + imm16.toNat * 65536)) ∧ t.psw = s.psw ∧
        KeepsBus s t)

/-- MOVHI then MOVEA build any constant (R143's derived recipe): `lo = K[15:0]`, `hi = (K - sext_16(lo))[31:16]`. -/
def Obligations.MovhiThenMoveaBuildAnyConstant : Prop :=
  ∀ (k : Word) (n : RegIdx) (s t u : State), n ≠ 0#5 →
    exec (.movhi ((k - (k.extractLsb' 0 16).signExtend 32).extractLsb' 16 16) 0#5 n) s = .next t →
    exec (.movea (k.extractLsb' 0 16) n n) t = .next u → u.gpr n = k

/-! ### Subtract and compare -/

/-- SUB reg1, reg2 (spec/41_subtract.md R150): the result modulo 2^32; Z, S; CY is the unsigned borrow; OV is the document's formula;
no other field of the status word changes. -/
def Obligations.SubtractWritesResultAndFlags : Prop :=
  ∀ (a b : RegIdx) (s : State),
    Encodes [fieldWord 0x0800#16 b a] (.sub a b) ∧
    Completes (exec (.sub a b) s) s .sub false (s.pc + 2#32) []
      (fun t =>
        WritesRegister s t b (BitVec.ofInt 32 ((s.gpr b).toInt - (s.gpr a).toInt)) ∧
        t.psw =
          { s.psw with
            z := decide (s.gpr b - s.gpr a = 0#32)
            s := (s.gpr b - s.gpr a)[31]
            ov := ((s.gpr b ^^^ s.gpr a) &&& ~~~(s.gpr a ^^^ (s.gpr b - s.gpr a)))[31]
            cy := decide ((s.gpr b).toNat < (s.gpr a).toNat) } ∧
        KeepsBus s t)

/-- OV after SUB is 1 exactly where the signed difference of the old operands does not fit 32 bits (R150 corner case (a), which the spec marks as
derived from the formula). -/
def Obligations.OverflowFlagIsSignedOverflow : Prop :=
  ∀ (a b : RegIdx) (s t : State), exec (.sub a b) s = .next t →
    (t.psw.ov = true ↔
      (s.gpr b).toInt - (s.gpr a).toInt < -2 ^ 31 ∨ 2 ^ 31 ≤ (s.gpr b).toInt - (s.gpr a).toInt)

/-- After SUB the ten comparing forms say what their names say of the old operands, signed and unsigned (spec/43_conditional_branch.md R162, R164, R167, R168, R170,
R172, R175, R176), and BLE and BGT do so under either value of the open parameter. -/
def Obligations.BranchesCompareAfterSubtract : Prop :=
  ∀ (a b : RegIdx) (s t : State) (d : BitVec 9), exec (.sub a b) s = .next t →
    takenOf (.bz d) t.psw = decide (s.gpr b = s.gpr a) ∧
    takenOf (.bnz d) t.psw = decide (s.gpr b ≠ s.gpr a) ∧
    takenOf (.bc d) t.psw = decide ((s.gpr b).toNat < (s.gpr a).toNat) ∧
    takenOf (.bnh d) t.psw = decide ((s.gpr b).toNat ≤ (s.gpr a).toNat) ∧
    takenOf (.bnc d) t.psw = decide ((s.gpr a).toNat ≤ (s.gpr b).toNat) ∧
    takenOf (.bh d) t.psw = decide ((s.gpr a).toNat < (s.gpr b).toNat) ∧
    takenOf (.blt d) t.psw = decide ((s.gpr b).toInt < (s.gpr a).toInt) ∧
    takenOf (.ble d) t.psw = decide ((s.gpr b).toInt ≤ (s.gpr a).toInt) ∧
    takenOf (.bge d) t.psw = decide ((s.gpr a).toInt ≤ (s.gpr b).toInt) ∧
    takenOf (.bgt d) t.psw = decide ((s.gpr a).toInt < (s.gpr b).toInt)

/-! ### Control flow -/

/-- JMP [reg1] (spec/42_jump.md R155): all 32 bits of the register, unmasked; nothing is saved. -/
def Obligations.JumpGoesToTheRegister : Prop :=
  ∀ (a ignored : RegIdx) (s : State),
    Encodes [fieldWord 0x1800#16 ignored a] (.jmp a) ∧
    Completes (exec (.jmp a) s) s .jmp false (s.gpr a) []
      (fun t => KeepsRegisters s t ∧ t.psw = s.psw ∧ KeepsBus s t)

/-- The common rule of the sixteen forms (spec/43_conditional_branch.md R160): whatever `cond` and `disp9`, the word is an instruction, which
completes at the target where its predicate holds and at `pc + 2` where not, and changes `pc` alone. -/
def Obligations.ConditionFormsFollowTheCommonRule : Prop :=
  ∀ (cond : BitVec 4) (d : BitVec 9) (s : State), ∃ i, Encodes [condWord cond d] i ∧ BranchesOn i d s (takenOf i s.psw)

/-- The eight forms with `cond[3]` = 0 (spec/43_conditional_branch.md R160 to R168): each completes, on its predicate. BLE's is the parameter
where S xor OV = 1 and Z = 1. -/
def Obligations.PlainConditionsBranch : Prop :=
  ∀ (d : BitVec 9) (s : State),
    Encodes [condWord 0#4 d] (.bv d) ∧
    BranchesOn (.bv d) d s s.psw.ov ∧
    Encodes [condWord 1#4 d] (.bc d) ∧
    BranchesOn (.bc d) d s s.psw.cy ∧
    Encodes [condWord 2#4 d] (.bz d) ∧
    BranchesOn (.bz d) d s s.psw.z ∧
    Encodes [condWord 3#4 d] (.bnh d) ∧
    BranchesOn (.bnh d) d s (s.psw.cy || s.psw.z) ∧
    Encodes [condWord 4#4 d] (.bn d) ∧
    BranchesOn (.bn d) d s s.psw.s ∧
    Encodes [condWord 5#4 d] (.br d) ∧
    BranchesOn (.br d) d s true ∧
    Encodes [condWord 6#4 d] (.blt d) ∧
    BranchesOn (.blt d) d s (s.psw.s != s.psw.ov) ∧
    Encodes [condWord 7#4 d] (.ble d) ∧
    BranchesOn (.ble d) d s
      (if (s.psw.s != s.psw.ov) && s.psw.z then Config.bleDisputedTaken else (s.psw.s != s.psw.ov) || s.psw.z)

/-- The eight forms with `cond[3]` = 1 (R169 to R176), NOP among them: each completes, on the negated predicate. -/
def Obligations.NegatedConditionsBranch : Prop :=
  ∀ (d : BitVec 9) (s : State),
    Encodes [condWord 8#4 d] (.bnv d) ∧
    BranchesOn (.bnv d) d s (!s.psw.ov) ∧
    Encodes [condWord 9#4 d] (.bnc d) ∧
    BranchesOn (.bnc d) d s (!s.psw.cy) ∧
    Encodes [condWord 10#4 d] (.bnz d) ∧
    BranchesOn (.bnz d) d s (!s.psw.z) ∧
    Encodes [condWord 11#4 d] (.bh d) ∧
    BranchesOn (.bh d) d s (!(s.psw.cy || s.psw.z)) ∧
    Encodes [condWord 12#4 d] (.bp d) ∧
    BranchesOn (.bp d) d s (!s.psw.s) ∧
    Encodes [condWord 13#4 d] .nop ∧
    BranchesOn .nop d s false ∧
    Encodes [condWord 14#4 d] (.bge d) ∧
    BranchesOn (.bge d) d s (s.psw.s == s.psw.ov) ∧
    Encodes [condWord 15#4 d] (.bgt d) ∧
    BranchesOn (.bgt d) d s
      (!(if (s.psw.s != s.psw.ov) && s.psw.z then Config.bleDisputedTaken else (s.psw.s != s.psw.ov) || s.psw.z))

/-- The outcome table (R177), for the parameter at its default; with the parameter false the four disputed entries of BLE turn to not taken and
those of BGT to taken, and no other entry turns. -/
def Obligations.OutcomeTableOfTheConditions : Prop :=
  ∀ p : Psw,
    conditionOutcomes true p =
      (List.range 16).map (fun k => (conditionTable.getD (p.pack.toNat % 16) 0#16).getLsbD (15 - k)) ∧
    conditionOutcomes false p =
      if p.s ≠ p.ov ∧ p.z = true then ((conditionOutcomes true p).set 7 false).set 15 true else conditionOutcomes true p

/-- The next address of every instruction that completes (spec/10_state.md R32). -/
def Obligations.NextAddressOfEveryInstruction : Prop :=
  ∀ (i : Instr) (s t : State), exec i s = .next t →
    t.pc =
      match i with
      | .jmp a => s.gpr a
      | .movea _ _ _ | .movhi _ _ _ => s.pc + 4#32
      | .ldB _ _ _ | .ldH _ _ _ | .ldW _ _ _ | .inB _ _ _ | .inH _ _ _ | .inW _ _ _ => s.pc + 4#32
      | .stB _ _ _ | .stH _ _ _ | .stW _ _ _ | .outB _ _ _ | .outH _ _ _ | .outW _ _ _ => s.pc + 4#32
      | .movReg _ _ | .movImm5 _ _ | .sub _ _ | .ldsr _ _ | .cli | .sei | .nop => s.pc + 2#32
      | .bv d | .bc d | .bz d | .bnh d | .bn d | .br d | .blt d | .ble d => if takenOf i s.psw then displaced s.pc d else s.pc + 2#32
      | .bnv d | .bnc d | .bnz d | .bh d | .bp d | .bge d | .bgt d => if takenOf i s.psw then displaced s.pc d else s.pc + 2#32

/-- The program counter stays even in a program that keeps to spec/70_reset_and_hazards.md R268 (a): the core does not enforce it (spec/10_state.md R29). -/
def Obligations.ProgramCounterStaysEven : Prop :=
  ∀ (s s1 t : State) (i : Instr), s.fetch = .ready i s1 → obligationsMet i s1 = true → step s = .next t →
    t.pc.getLsbD 0 = false

/-! ### System instructions -/

/-- LDSR with selector 5 (spec/44_system.md R190). -/
def Obligations.LdsrWritesTheStatusWord : Prop :=
  ∀ (r : RegIdx) (s : State),
    Encodes [fieldWord 0x7000#16 r 5#5] (.ldsr r 5#5) ∧
    Completes (exec (.ldsr r 5#5) s) s .ldsr false (s.pc + 2#32) []
      (fun t => t.psw = Psw.unpack (s.gpr r) ∧ t.psw.pack = s.gpr r &&& 0x000FF3FF#32 ∧ KeepsRegisters s t ∧ KeepsBus s t)

/-- LDSR with any other selector faults (spec/44_system.md R191): in the step, nothing is written, `pc` stays, no cycles are reported, and
only the fetch has happened. -/
def Obligations.LdsrFaultsOnOtherSelectors : Prop :=
  ∀ (s s1 : State) (r : RegIdx) (k : BitVec 5), k ≠ 5#5 →
    Encodes [fieldWord 0x7000#16 r k] (.ldsr r k) ∧
    exec (.ldsr r k) s = .fault (.unimplementedSystemRegister s.pc k) ∧
    (s.faultMark = none → s.fetch = .ready (.ldsr r k) s1 →
      step s = .fault (.unimplementedSystemRegister s.pc k) ∧ SameCore s s.afterStep ∧ s.afterStep.mem = s.mem ∧
        s.afterStep.busLog = [.readHalfword s.pc] ∧ s.afterStep.cycleTotal = s.cycleTotal)

/-- CLI clears ID and changes no other field (R192); SEI sets it and changes no other field (R193). -/
def Obligations.CliAndSeiWriteIdAlone : Prop :=
  ∀ (s : State) (ignored : BitVec 10),
    Encodes [0x5800#16 ||| ignored.setWidth 16] .cli ∧ Encodes [0x7800#16 ||| ignored.setWidth 16] .sei ∧
    Completes (exec .cli s) s .cli false (s.pc + 2#32) []
      (fun t => t.psw = { s.psw with id := false } ∧ KeepsRegisters s t ∧ KeepsBus s t) ∧
    Completes (exec .sei s) s .sei false (s.pc + 2#32) []
      (fun t => t.psw = { s.psw with id := true } ∧ KeepsRegisters s t ∧ KeepsBus s t)

/-- Which instructions write the status word, and what (spec/10_state.md R45): SUB the four condition flags, CLI and SEI the flag ID, LDSR all of
it, no other instruction any of it. -/
def Obligations.OnlyFourInstructionsWriteTheStatusWord : Prop :=
  ∀ (i : Instr) (s t : State), exec i s = .next t →
    match i with
    | .sub a b =>
      t.psw =
        { s.psw with
          z := decide (s.gpr b - s.gpr a = 0#32)
          s := (s.gpr b - s.gpr a)[31]
          ov := ((s.gpr b ^^^ s.gpr a) &&& ~~~(s.gpr a ^^^ (s.gpr b - s.gpr a)))[31]
          cy := decide ((s.gpr b).toNat < (s.gpr a).toNat) }
    | .cli => t.psw = { s.psw with id := false }
    | .sei => t.psw = { s.psw with id := true }
    | .ldsr r _ => t.psw = Psw.unpack (s.gpr r)
    | _ => t.psw = s.psw

/-- Which instructions write general registers (spec/10_state.md R26): a register that is not the destination keeps its value. -/
def Obligations.OnlyTheDestinationRegisterChanges : Prop :=
  ∀ (i : Instr) (s t : State), exec i s = .next t → ∀ j : RegIdx, destination i ≠ some j → t.gpr j = s.gpr j

/-! ### Loads -/

/-- Every load completes, at every address, aligned or not (spec/45_load.md R200 to R206): one read of its width at the effective address, `r0` as destination
included; byte and halfword answers are sign-extended, IN as LD. -/
def Obligations.LoadsWriteTheExtendedAnswer : Prop :=
  ∀ (d : Halfword) (r1 r2 : RegIdx) (s : State),
    s.effAddr r1 d = displaced (s.gpr r1) d ∧
    Encodes [fieldWord 0xC000#16 r2 r1, d] (.ldB d r1 r2) ∧
    LoadsValue (.ldB d r1 r2) s (.readByte (s.effAddr r1 d)) r2
      (BitVec.ofInt 32 ((s.readAnswer .byte (s.effAddr r1 d)).setWidth 8).toInt) ∧
    Encodes [fieldWord 0xC400#16 r2 r1, d] (.ldH d r1 r2) ∧
    LoadsValue (.ldH d r1 r2) s (.readHalfword (s.effAddr r1 d)) r2
      (BitVec.ofInt 32 ((s.readAnswer .half (s.effAddr r1 d)).setWidth 16).toInt) ∧
    Encodes [fieldWord 0xCC00#16 r2 r1, d] (.ldW d r1 r2) ∧
    LoadsValue (.ldW d r1 r2) s (.readWord (s.effAddr r1 d)) r2
      (s.readAnswer .word (s.effAddr r1 d)) ∧
    Encodes [fieldWord 0xE000#16 r2 r1, d] (.inB d r1 r2) ∧
    LoadsValue (.inB d r1 r2) s (.readByte (s.effAddr r1 d)) r2
      (BitVec.ofInt 32 ((s.readAnswer .byte (s.effAddr r1 d)).setWidth 8).toInt) ∧
    Encodes [fieldWord 0xE400#16 r2 r1, d] (.inH d r1 r2) ∧
    LoadsValue (.inH d r1 r2) s (.readHalfword (s.effAddr r1 d)) r2
      (BitVec.ofInt 32 ((s.readAnswer .half (s.effAddr r1 d)).setWidth 16).toInt) ∧
    Encodes [fieldWord 0xEC00#16 r2 r1, d] (.inW d r1 r2) ∧
    LoadsValue (.inW d r1 r2) s (.readWord (s.effAddr r1 d)) r2
      (s.readAnswer .word (s.effAddr r1 d))

/-- Whatever value the bus answers, a load takes it, at any address (spec/20_memory.md R71): the next queued answer, cut to the width. -/
def Obligations.LoadsTakeAnyBusAnswer : Prop :=
  ∀ (d : Halfword) (r1 r2 : RegIdx) (s : State) (v : Word) (rest : List (Option Word)), s.busAnswers = some v :: rest →
    LoadsValue (.ldB d r1 r2) s (.readByte (s.effAddr r1 d)) r2 (BitVec.ofInt 32 (v.setWidth 8).toInt) ∧
    LoadsValue (.ldH d r1 r2) s (.readHalfword (s.effAddr r1 d)) r2 (BitVec.ofInt 32 (v.setWidth 16).toInt) ∧
    LoadsValue (.ldW d r1 r2) s (.readWord (s.effAddr r1 d)) r2 v ∧
    LoadsValue (.inB d r1 r2) s (.readByte (s.effAddr r1 d)) r2 (BitVec.ofInt 32 (v.setWidth 8).toInt) ∧
    LoadsValue (.inH d r1 r2) s (.readHalfword (s.effAddr r1 d)) r2 (BitVec.ofInt 32 (v.setWidth 16).toInt) ∧
    LoadsValue (.inW d r1 r2) s (.readWord (s.effAddr r1 d)) r2 v

/-- On the reference bus an aligned read is the little-endian sum of the bytes at its addresses (spec/20_memory.md R87). -/
def Obligations.ReferenceBusReadsLittleEndian : Prop :=
  ∀ (s : State) (a : Word), s.busAnswers = [] →
    (s.readAnswer .byte a).toNat = (Memory.readByte s.mem a).toNat ∧
    (a.toNat % 2 = 0 → (s.readAnswer .half a).toNat =
      (Memory.readByte s.mem a).toNat + 2 ^ 8 * (Memory.readByte s.mem (a + 1#32)).toNat) ∧
    (a.toNat % 4 = 0 → (s.readAnswer .word a).toNat =
      (Memory.readByte s.mem a).toNat + 2 ^ 8 * (Memory.readByte s.mem (a + 1#32)).toNat +
        2 ^ 16 * (Memory.readByte s.mem (a + 2#32)).toNat + 2 ^ 24 * (Memory.readByte s.mem (a + 3#32)).toNat)

/-- IN.B, IN.H and IN.W behave identically to the load of their width, but for the reported cycle count (spec/45_load.md R204, R205, R206). -/
def Obligations.InputsAreAliasesOfLoads : Prop :=
  ∀ (d : Halfword) (r1 r2 : RegIdx) (s : State),
    SameButCycles (exec (.inB d r1 r2) s) (exec (.ldB d r1 r2) s) ∧
    SameButCycles (exec (.inH d r1 r2) s) (exec (.ldH d r1 r2) s) ∧
    SameButCycles (exec (.inW d r1 r2) s) (exec (.ldW d r1 r2) s)

/-! ### Stores -/

/-- Every store completes, at every address, aligned or not (spec/46_store.md R215 to R221): one write of its width, the data truncated, at the unmodified effective
address; no register and no flag changes. -/
def Obligations.StoresIssueOneBusWrite : Prop :=
  ∀ (r2 : RegIdx) (d : Halfword) (r1 : RegIdx) (s : State),
    s.effAddr r1 d = displaced (s.gpr r1) d ∧
    Encodes [fieldWord 0xD000#16 r2 r1, d] (.stB r2 d r1) ∧
    StoresValue (.stB r2 d r1) s (.writeByte (s.effAddr r1 d) ((s.gpr r2).extractLsb' 0 8)) ∧
    Encodes [fieldWord 0xD400#16 r2 r1, d] (.stH r2 d r1) ∧
    StoresValue (.stH r2 d r1) s (.writeHalfword (s.effAddr r1 d) ((s.gpr r2).extractLsb' 0 16)) ∧
    Encodes [fieldWord 0xDC00#16 r2 r1, d] (.stW r2 d r1) ∧
    StoresValue (.stW r2 d r1) s (.writeWord (s.effAddr r1 d) (s.gpr r2)) ∧
    Encodes [fieldWord 0xF000#16 r2 r1, d] (.outB r2 d r1) ∧
    StoresValue (.outB r2 d r1) s (.writeByte (s.effAddr r1 d) ((s.gpr r2).extractLsb' 0 8)) ∧
    Encodes [fieldWord 0xF400#16 r2 r1, d] (.outH r2 d r1) ∧
    StoresValue (.outH r2 d r1) s (.writeHalfword (s.effAddr r1 d) ((s.gpr r2).extractLsb' 0 16)) ∧
    Encodes [fieldWord 0xFC00#16 r2 r1, d] (.outW r2 d r1) ∧
    StoresValue (.outW r2 d r1) s (.writeWord (s.effAddr r1 d) (s.gpr r2))

/-- The memory frame of the stores: no byte changes outside the span of the bus write. At an aligned address the span is the width's bytes; at a
misaligned one it is the two aligned units the bytes lie in, which is the model's choice (log entry 4), since the spec leaves the effect to the bus. -/
def Obligations.StoresTouchOnlyTheirSpan : Prop :=
  ∀ (r2 : RegIdx) (d : Halfword) (r1 : RegIdx) (s : State),
    WritesWithin (.stB r2 d r1) s (s.effAddr r1 d, 1) ∧
    WritesWithin (.outB r2 d r1) s (s.effAddr r1 d, 1) ∧
    ((s.effAddr r1 d).toNat % 2 = 0 →
      WritesWithin (.stH r2 d r1) s (s.effAddr r1 d, 2) ∧ WritesWithin (.outH r2 d r1) s (s.effAddr r1 d, 2)) ∧
    ((s.effAddr r1 d).toNat % 4 = 0 →
      WritesWithin (.stW r2 d r1) s (s.effAddr r1 d, 4) ∧ WritesWithin (.outW r2 d r1) s (s.effAddr r1 d, 4)) ∧
    ((s.effAddr r1 d).toNat % 2 ≠ 0 →
      WritesWithin (.stH r2 d r1) s (s.effAddr r1 d &&& 0xFFFFFFFE#32, 4) ∧
      WritesWithin (.outH r2 d r1) s (s.effAddr r1 d &&& 0xFFFFFFFE#32, 4)) ∧
    ((s.effAddr r1 d).toNat % 4 ≠ 0 →
      WritesWithin (.stW r2 d r1) s (s.effAddr r1 d &&& 0xFFFFFFFC#32, 8) ∧
      WritesWithin (.outW r2 d r1) s (s.effAddr r1 d &&& 0xFFFFFFFC#32, 8))

/-- The bytes that an aligned store leaves on the reference bus, least significant at the lowest address (spec/20_memory.md R87; spec/46_store.md R216 to R221). -/
def Obligations.AlignedStoresLeaveTheirBytes : Prop :=
  ∀ (r2 : RegIdx) (d : Halfword) (r1 : RegIdx) (s : State), Memory.wf s.mem = true →
    LeavesBytes (exec (.stB r2 d r1) s) (s.effAddr r1 d) (s.gpr r2) 1 ∧
    LeavesBytes (exec (.outB r2 d r1) s) (s.effAddr r1 d) (s.gpr r2) 1 ∧
    ((s.effAddr r1 d).toNat % 2 = 0 →
      LeavesBytes (exec (.stH r2 d r1) s) (s.effAddr r1 d) (s.gpr r2) 2 ∧
      LeavesBytes (exec (.outH r2 d r1) s) (s.effAddr r1 d) (s.gpr r2) 2) ∧
    ((s.effAddr r1 d).toNat % 4 = 0 →
      LeavesBytes (exec (.stW r2 d r1) s) (s.effAddr r1 d) (s.gpr r2) 4 ∧
      LeavesBytes (exec (.outW r2 d r1) s) (s.effAddr r1 d) (s.gpr r2) 4)

/-- OUT.B, OUT.H and OUT.W behave identically to the store of their width, but for the reported cycle count (spec/46_store.md R219, R220, R221). -/
def Obligations.OutputsAreAliasesOfStores : Prop :=
  ∀ (r2 : RegIdx) (d : Halfword) (r1 : RegIdx) (s : State),
    SameButCycles (exec (.outB r2 d r1) s) (exec (.stB r2 d r1) s) ∧
    SameButCycles (exec (.outH r2 d r1) s) (exec (.stH r2 d r1) s) ∧
    SameButCycles (exec (.outW r2 d r1) s) (exec (.stW r2 d r1) s)

/-- Only the six stores write memory: every other instruction leaves all of it. -/
def Obligations.OnlyStoresWriteMemory : Prop :=
  ∀ (i : Instr) (s t : State), exec i s = .next t →
    match i with
    | .stB _ _ _ | .stH _ _ _ | .stW _ _ _ | .outB _ _ _ | .outH _ _ _ | .outW _ _ _ => True
    | _ => t.mem = s.mem

/-- A word stored and then loaded from the same aligned address comes back unchanged, and a byte or a halfword comes back sign-extended (spec/20_memory.md R83 (d),
spec/95_test_vectors.md S9). -/
def Obligations.StoreThenLoadGivesTheValueBack : Prop :=
  ∀ (r n b b' : RegIdx) (d d' : Halfword) (s t u : State), n ≠ 0#5 →
    Memory.wf s.mem = true → s.busAnswers = [] → s.effAddr b d = s.effAddr b' d' →
    ((s.effAddr b d).toNat % 4 = 0 → exec (.stW r d b) s = .next t → exec (.ldW d' b' n) t = .next u →
      u.gpr n = s.gpr r) ∧
    ((s.effAddr b d).toNat % 2 = 0 → exec (.stH r d b) s = .next t → exec (.ldH d' b' n) t = .next u →
      u.gpr n = ((s.gpr r).setWidth 16).signExtend 32) ∧
    (exec (.stB r d b) s = .next t → exec (.ldB d' b' n) t = .next u →
      u.gpr n = ((s.gpr r).setWidth 8).signExtend 32)

/-- A store into the instruction stream is seen by the next fetch (spec/20_memory.md R85): a halfword stored at the next `pc`, if it is a one-halfword instruction, is
what the next step executes. -/
def Obligations.StoredInstructionIsFetched : Prop :=
  ∀ (r : RegIdx) (d : Halfword) (b : RegIdx) (s t : State) (op : Opcode),
    Memory.wf s.mem = true → s.busAnswers = [] → s.faultMark = none → s.effAddr b d = s.pc + 4#32 → s.pc.toNat % 2 = 0 →
    classify ((s.gpr r).extractLsb' 0 16) = some op → op.twoHalfwords = false → exec (.stH r d b) s = .next t →
    step t = exec (op.extract ((s.gpr r).extractLsb' 0 16) 0#16) { t with busLog := [.readHalfword t.pc] }

/-! ### The step -/

/-- A step runs the decoded instruction: where the bytes at an even `pc` decode, on the reference bus, the step is `exec` of the instruction at the state that has issued
the fetches (spec/10_state.md R31). -/
def Obligations.StepRunsTheInstructionInMemory : Prop :=
  ∀ (s : State) (i : Instr) (rest : List Byte), s.faultMark = none → s.pc.toNat % 2 = 0 → s.busAnswers = [] →
    decodeBytes [Memory.readByte s.mem s.pc, Memory.readByte s.mem (s.pc + 1#32), Memory.readByte s.mem (s.pc + 2#32),
      Memory.readByte s.mem (s.pc + 3#32)] = .instr i rest →
    step s = exec i { s with busLog := fetchEvents i s.pc }

/-- The same for any bus: where the bus's answers to the fetches decode, the step is `exec` of the instruction (spec/20_memory.md R71; spec/10_state.md R31). -/
def Obligations.StepRunsTheInstructionAnyBusAnswers : Prop :=
  ∀ (s : State) (i : Instr) (v1 v2 : Word) (answers : List (Option Word)) (rest : List Halfword),
    s.faultMark = none → s.pc.toNat % 2 = 0 → s.busAnswers = some v1 :: some v2 :: answers →
    decode [v1.extractLsb' 0 16, v2.extractLsb' 0 16] = .instr i rest →
    step s = exec i
      { s with
        busLog := fetchEvents i s.pc
        busAnswers := if i.opcode.twoHalfwords then answers else some v2 :: answers }

/-- `withFetchWord` places the word where the next step fetches it. -/
def Obligations.PlacedWordIsTheNextInstruction : Prop :=
  ∀ (s : State) (nbits w : Nat) (i : Instr), s.faultMark = none → s.pc.toNat % 2 = 0 → Memory.wf s.mem = true →
    s.busAnswers = [] → decodeTableWord nbits w = some i →
    step (s.withFetchWord nbits w) = exec i { s.withFetchWord nbits w with busLog := fetchEvents i s.pc }

/-- A step that begins with an odd `pc` faults before any bus access (spec/10_state.md R29, R31). -/
def Obligations.OddProgramCounterFaults : Prop :=
  ∀ s : State, s.faultMark = none → s.pc.toNat % 2 = 1 →
    step s = .fault (.misalignedPc s.pc) ∧ s.afterStep = { s with faultMark := some (.misalignedPc s.pc), busLog := [] }

/-- A step whose first halfword has an unassigned `opc6` faults (spec/30_encoding.md R112): one fetch was issued, no second one, and nothing else happened. -/
def Obligations.UnrecognizedHalfwordFaults : Prop :=
  ∀ s : State, s.faultMark = none → s.pc.toNat % 2 = 0 →
    ((s.fetchAnswer s.pc).extractLsb' 10 6).toNat ∈ unassignedOpc6 →
    classify (s.fetchAnswer s.pc) = none ∧
    step s = .fault (.unrecognizedOpcode s.pc (s.fetchAnswer s.pc)) ∧ SameCore s s.afterStep ∧ s.afterStep.mem = s.mem ∧
      s.afterStep.cycleTotal = s.cycleTotal ∧ s.afterStep.busLog = [.readHalfword s.pc] ∧
      s.afterStep.busAnswers = s.busAnswers.tail

/-- The core can stop in exactly three ways (spec/60_exceptions.md R230), and a step that meets none of the three conditions completes. -/
def Obligations.TheCoreStopsInExactlyThreeWays : Prop :=
  (∀ (s : State) (f : Fault), step s = .fault f ↔
    s.faultMark = none ∧
      ((s.pc.toNat % 2 = 1 ∧ f = .misalignedPc s.pc) ∨
        (s.pc.toNat % 2 = 0 ∧ classify (s.fetchAnswer s.pc) = none ∧
          f = .unrecognizedOpcode s.pc (s.fetchAnswer s.pc)) ∨
        (s.pc.toNat % 2 = 0 ∧ classify (s.fetchAnswer s.pc) = some .ldsr ∧
          (s.fetchAnswer s.pc).extractLsb' 0 5 ≠ 5#5 ∧
          f = .unimplementedSystemRegister s.pc ((s.fetchAnswer s.pc).extractLsb' 0 5)))) ∧
  (∀ (s : State) (r : Refusal), step s = .refused r ↔ ∃ f, s.faultMark = some f ∧ r = .faultMarkSet f) ∧
  ∀ s : State, (∃ t, step s = .next t) ∨ (∃ f, step s = .fault f) ∨ ∃ f, s.faultMark = some f

/-- A faulting step changes no register, no `pc`, no status word and no memory, and sets the mark; with the mark set there is no step, and no
host operation but reset clears it (spec/60_exceptions.md R233). -/
def Obligations.FaultKeepsTheCoreAndStopsIt : Prop :=
  (∀ (s : State) (f : Fault), step s = .fault f →
    SameCore s s.afterStep ∧ s.afterStep.mem = s.mem ∧ s.afterStep.cycleTotal = s.cycleTotal ∧
      s.afterStep.faultMark = some f) ∧
  ∀ (op : HostOp) (s : State) (f : Fault), s.faultMark = some f →
    step s = .refused (.faultMarkSet f) ∧
      (hostCall op s).1.faultMark = (if op = .reset then none else some f)

/-- Reset (spec/70_reset_and_hazards.md R260, R261): from every state, faulted or not, the core takes its reset values and the mark is cleared, with no bus
operation issued; no other operation of the host leaves the fault state. What reset does to the bus is
`Obligations.HostResetLeavesTheBusAlone`. -/
def Obligations.HostResetRestoresTheCore : Prop :=
  ∀ s : State,
    (∀ i : RegIdx, (hostCall .reset s).1.gpr i = 0#32) ∧ (hostCall .reset s).1.pc = 0xFFFFFFF0#32 ∧
    (hostCall .reset s).1.psw.pack = 0x00008000#32 ∧ (hostCall .reset s).1.faultMark = none ∧
    (hostCall .reset s).1.busLog = [] ∧
    ∀ (op : HostOp) (f : Fault), s.faultMark = some f → op ≠ .reset → (hostCall op s).1.faultMark = some f

/-- The host's operations (spec/70_reset_and_hazards.md R266): the four besides reset and step read what they say and change nothing, but for `set_reg_psw`, which writes the status word alone. -/
def Obligations.HostOperationsReadAndWritePsw : Prop :=
  ∀ (s : State) (i : RegIdx) (v : Word),
    hostCall .regPc s = (s, some s.pc) ∧ hostCall (.regGpr i) s = (s, some (s.gpr i)) ∧
    hostCall .regPsw s = (s, some s.psw.pack) ∧
    hostCall (.setRegPsw v) s = ({ s with psw := Psw.unpack v }, none) ∧
    (hostCall .regPsw (hostCall (.setRegPsw v) s).1).2 = some (v &&& 0x000FF3FF#32) ∧
    ∀ t, step s = .next t → hostCall .step s = (t, none)

/-- The bus operations of a completed step, in order (spec/20_memory.md R72, R74, R79): the fetch at `pc`, the fetch at `pc + 2` for a two-halfword instruction, the data access, then one
cycle report, whose value depends on the opcode and on whether a condition-code form is taken alone (spec/70_reset_and_hazards.md R271). -/
def Obligations.BusOperationsOfAStepInOrder : Prop :=
  ∀ s t : State, step s = .next t → ∃ i s1, s.fetch = .ready i s1 ∧
    t.busLog = fetchEvents i s.pc ++ dataAccess i s ++ [.cycles (Config.cycles i.opcode (takenOf i s.psw))] ∧
    (dataAccess i s).length ≤ 1 ∧ t.cycleTotal = s.cycleTotal + (Config.cycles i.opcode (takenOf i s.psw)).toNat

/-- Reset has the invariant. -/
def Obligations.ResetHasTheInvariant : Prop := State.reset.Inv

/-- Every step keeps the invariant: memory in canonical form, the log of bus operations in the shape of one step, from every state that has it. -/
def Obligations.EveryStepKeepsTheInvariant : Prop :=
  ∀ s t : State, s.Inv → step s = .next t → t.Inv

/-- So does every operation of the host, a faulting step included. -/
def Obligations.EveryHostOperationKeepsTheInvariant : Prop :=
  ∀ (op : HostOp) (s : State), s.Inv → (hostCall op s).1.Inv

/-- The fields ID, AE, EP, NP, IL and the FP flags are storage only (spec/60_exceptions.md R236): two runs of any length that differ in them alone agree in everything
else. A run is made of steps alone: that the host calls nothing between them is a premise (R266, log entry 12). -/
def Obligations.ControlBitsNeverAffectARun : Prop :=
  ∀ (k : Nat) (s s' : State), AgreeButControlBits s s' →
    OutcomesAgree (Host.Core.run Sys2Proof.core k s) (Host.Core.run Sys2Proof.core k s')

/-- On the reference bus (spec/20_memory.md R87) a step that the core completes goes on exactly where its data access, if it has one, meets the `requires` clause, and is
refused with that access where it does not; a step that stops in the core stops the same way; and no free value is ever used. -/
def Obligations.ReferenceBusRefusesMisalignedAccesses : Prop :=
  ∀ s : State, s.busAnswers = [] →
    (∀ t i s1, step s = .next t → s.fetch = .ready i s1 →
      stepOnRefBus s =
        (match (dataAccess i s).head? with
        | some (.readHalfword a) => if a.toNat % 2 = 0 then .next t else .refused (.referenceBusRefuses (.readHalfword a))
        | some (.readWord a) => if a.toNat % 4 = 0 then .next t else .refused (.referenceBusRefuses (.readWord a))
        | some (.writeHalfword a v) => if a.toNat % 2 = 0 then .next t else .refused (.referenceBusRefuses (.writeHalfword a v))
        | some (.writeWord a v) => if a.toNat % 4 = 0 then .next t else .refused (.referenceBusRefuses (.writeWord a v))
        | _ => .next t)) ∧
    (∀ f, step s = .fault f → stepOnRefBus s = .fault f) ∧
    (∀ r, step s = .refused r → stepOnRefBus s = .refused r) ∧
    ∀ t, stepOnRefBus s = .next t → t.freeCount = s.freeCount

/-- Reset leaves the bus as it is: memory, the cycle total, the queued answers and the counter of free values. This is the model's choice (log entry 11): the spec says
that reset issues no bus operation and that the bus is not the core's (spec/10_state.md R51). -/
def Obligations.HostResetLeavesTheBusAlone : Prop :=
  ∀ s : State,
    (hostCall .reset s).1.mem = s.mem ∧ (hostCall .reset s).1.cycleTotal = s.cycleTotal ∧
    (hostCall .reset s).1.busAnswers = s.busAnswers ∧ (hostCall .reset s).1.freeCount = s.freeCount
end

