-- ==== Sys2Proof/Laws/Decode.lean ====
section
/-! SUPPORT. The fields of a packed halfword, and the opcode of an extracted instruction. -/

namespace Sys2Proof

theorem fieldLow5_packFields (o : BitVec 6) (b a : BitVec 5) : fieldLow5 (packFields o b a) = a := by
  apply BitVec.eq_of_getLsbD_eq
  intro i hi
  simp only [fieldLow5, packFields, BitVec.getLsbD_extractLsb', BitVec.getLsbD_append]
  simp [hi]

theorem fieldReg2_packFields (o : BitVec 6) (b a : BitVec 5) : fieldReg2 (packFields o b a) = b := by
  apply BitVec.eq_of_getLsbD_eq
  intro i hi
  simp only [fieldReg2, packFields, BitVec.getLsbD_extractLsb', BitVec.getLsbD_append]
  simp [hi]

theorem opc6_packFields (o : BitVec 6) (b a : BitVec 5) : (packFields o b a).extractLsb' 10 6 = o := by
  apply BitVec.eq_of_getLsbD_eq
  intro i hi
  simp only [packFields, BitVec.getLsbD_extractLsb', BitVec.getLsbD_append]
  simp [hi, show ¬ 10 + i < 5 by omega, show ¬ 10 + i - 5 < 5 by omega, show 10 + i - 5 - 5 = i by omega]

theorem top3_packFields (o : BitVec 6) (b a : BitVec 5) : (packFields o b a).extractLsb' 13 3 = o.extractLsb' 3 3 := by
  apply BitVec.eq_of_getLsbD_eq
  intro i hi
  simp only [packFields, BitVec.getLsbD_extractLsb', BitVec.getLsbD_append]
  simp [hi, show ¬ 13 + i < 5 by omega, show ¬ 13 + i - 5 < 5 by omega, show 13 + i - 5 - 5 = 3 + i by omega]

theorem fieldDisp9_packCond (c : BitVec 4) (d : BitVec 9) : fieldDisp9 (packCond c d) = d := by
  apply BitVec.eq_of_getLsbD_eq
  intro i hi
  simp only [fieldDisp9, packCond, BitVec.getLsbD_extractLsb', BitVec.getLsbD_append]
  simp [hi]

theorem cond_packCond (c : BitVec 4) (d : BitVec 9) : (packCond c d).extractLsb' 9 4 = c := by
  apply BitVec.eq_of_getLsbD_eq
  intro i hi
  simp only [packCond, BitVec.getLsbD_extractLsb', BitVec.getLsbD_append]
  simp [hi]

theorem top3_packCond (c : BitVec 4) (d : BitVec 9) : (packCond c d).extractLsb' 13 3 = 0b100#3 := by
  apply BitVec.eq_of_getLsbD_eq
  intro i hi
  simp only [packCond, BitVec.getLsbD_extractLsb', BitVec.getLsbD_append]
  simp [hi, show ¬ 13 + i < 9 by omega, show ¬ 13 + i - 9 < 4 by omega, show 13 + i - 9 - 4 = i by omega]

/-- A format III halfword is classified by its condition. -/
theorem classify_packCond (c : BitVec 4) (d : BitVec 9) : classify (packCond c d) = some (condOpcode c) := by
  unfold classify
  rw [if_pos (top3_packCond c d), cond_packCond]

/-- Any other halfword is classified by `opc6`. -/
theorem classify_packFields {o : BitVec 6} (b a : BitVec 5) (h : o.extractLsb' 3 3 ≠ 0b100#3) :
    classify (packFields o b a) = opc6Opcode o := by
  unfold classify
  rw [top3_packFields, if_neg h, opc6_packFields]

/-- Every halfword is packed from its own fields. -/
theorem packFields_fields (h : Halfword) : packFields (h.extractLsb' 10 6) (fieldReg2 h) (fieldLow5 h) = h := by
  apply BitVec.eq_of_getLsbD_eq
  intro i hi
  simp only [packFields, fieldReg2, fieldLow5, BitVec.getLsbD_append, BitVec.getLsbD_extractLsb']
  split
  · simp [*]
  · split
    · simp [show i - 5 < 5 by omega, show 5 + (i - 5) = i by omega]
    · simp [show i - 5 - 5 < 6 by omega, show 10 + (i - 5 - 5) = i by omega]

/-- A halfword whose top bits are 100 is packed from its condition and displacement. -/
theorem packCond_fields {h : Halfword} (ht : h.extractLsb' 13 3 = 0b100#3) :
    packCond (h.extractLsb' 9 4) (fieldDisp9 h) = h := by
  apply BitVec.eq_of_getLsbD_eq
  intro i hi
  simp only [packCond, fieldDisp9, BitVec.getLsbD_append, BitVec.getLsbD_extractLsb', ← ht]
  split
  · simp [*]
  · split
    · simp [show i - 9 < 4 by omega, show 9 + (i - 9) = i by omega]
    · simp [show i - 9 - 4 < 3 by omega, show 13 + (i - 9 - 4) = i by omega]

/-- The two kinds of halfword, with how each is classified. -/
theorem classify_cases (h : Halfword) :
    (∃ c d, h = packCond c d ∧ classify h = some (condOpcode c)) ∨
      ∃ o b a, h = packFields o b a ∧ o.extractLsb' 3 3 ≠ 0b100#3 ∧ classify h = opc6Opcode o := by
  by_cases ht : h.extractLsb' 13 3 = 0b100#3
  · refine .inl ⟨_, _, (packCond_fields ht).symm, ?_⟩
    unfold classify
    rw [if_pos ht]
  · refine .inr ⟨_, _, _, (packFields_fields h).symm, ?_, ?_⟩
    · intro e
      apply ht
      rw [← packFields_fields h, top3_packFields]
      exact e
    · unfold classify
      rw [if_neg ht]

/-- The packing as shifts and ors, the form the rules of the spec write. -/
theorem packFields_eq_or (o : BitVec 6) (b a : BitVec 5) :
    packFields o b a = o.setWidth 16 <<< 10 ||| b.setWidth 16 <<< 5 ||| a.setWidth 16 := by
  apply BitVec.eq_of_getLsbD_eq
  intro i hi
  simp only [packFields, BitVec.getLsbD_append, BitVec.getLsbD_or, BitVec.getLsbD_shiftLeft, BitVec.getLsbD_setWidth]
  by_cases h5 : i < 5
  · simp [h5, hi, show i < 10 by omega]
  · by_cases h10 : i < 10
    · simp [h5, hi, h10, show i - 5 < 5 by omega, show i - 5 < 16 by omega, BitVec.getLsbD_of_ge a i (by omega)]
    · simp [h5, hi, h10, show ¬ i - 5 < 5 by omega, show i - 5 - 5 = i - 10 by omega, show i - 10 < 16 by omega,
        BitVec.getLsbD_of_ge b (i - 5) (by omega), BitVec.getLsbD_of_ge a i (by omega)]

/-- The same for format III. -/
theorem packCond_eq_or (c : BitVec 4) (d : BitVec 9) :
    packCond c d = 0x8000#16 ||| c.setWidth 16 <<< 9 ||| d.setWidth 16 := by
  apply BitVec.eq_of_getLsbD_eq
  intro i hi
  simp only [packCond, BitVec.getLsbD_append, BitVec.getLsbD_or, BitVec.getLsbD_shiftLeft, BitVec.getLsbD_setWidth]
  interval_cases i <;> simp

theorem opcode_extract (op : Opcode) (hw1 hw2 : Halfword) : (op.extract hw1 hw2).opcode = op := by
  cases op <;> rfl

theorem length_encode (i : Instr) : (encode i).length = if i.opcode.twoHalfwords then 2 else 1 := by
  cases i <;> rfl

end Sys2Proof
end

