-- ==== Sys2Proof/Laws/Flags.lean ====
section
/-! SUPPORT. What the flag computations and the memory joins come to, as facts about numbers. -/

namespace Sys2Proof.Machine

theorem bit31_toNat (x : Word) : x.getLsbD 31 = decide (2 ^ 31 ≤ x.toNat) := by
  have h : x.getLsbD 31 = x.msb := by simp [BitVec.msb_eq_getLsbD_last]
  rw [h, BitVec.msb_eq_decide]

theorem bit31_toInt (x : Word) : x.getLsbD 31 = decide (x.toInt < 0) := by
  rw [bit31_toNat, decide_eq_decide, BitVec.toInt_eq_toNat_cond]
  have := x.isLt
  split <;> omega

/-- OV is the signed overflow of the difference. -/
theorem subOverflow_eq (lhs rhs : Word) :
    subOverflow lhs rhs = decide (lhs.toInt - rhs.toInt < -2 ^ 31 ∨ 2 ^ 31 ≤ lhs.toInt - rhs.toInt) := by
  have hl := lhs.isLt
  have hr := rhs.isLt
  unfold subOverflow
  simp only [BitVec.getLsbD_and, BitVec.getLsbD_xor, BitVec.getLsbD_not]
  simp only [bit31_toNat, BitVec.toNat_sub, BitVec.toInt_eq_toNat_cond]
  rw [Bool.eq_iff_iff]
  by_cases h1 : 2 ^ 31 ≤ lhs.toNat <;> by_cases h2 : 2 ^ 31 ≤ rhs.toNat <;> simp <;> split_ifs <;> omega

/-- CY is the unsigned comparison. -/
theorem subCarry_eq (lhs rhs : Word) : subCarry lhs rhs = decide (lhs.toNat < rhs.toNat) := rfl

theorem sub_beq_zero (lhs rhs : Word) : (lhs - rhs == 0#32) = decide (lhs = rhs) := by
  by_cases h : lhs = rhs
  · subst h; simp
  · have hne : lhs - rhs ≠ 0#32 := fun e => h (by simpa using congrArg (· + rhs) e)
    simp [h, hne]

/-- The base plus a sign-extended displacement, as integers. -/
theorem add_sext {n : Nat} (x : Word) (d : BitVec n) : x + sext d = BitVec.ofInt 32 ((x.toNat : Int) + d.toInt) := by
  unfold sext BitVec.signExtend
  rw [BitVec.ofInt_add]
  simp

theorem aligned_half (a : Word) : Width.aligned .half a = true ↔ a.toNat % 2 = 0 := by
  simp [Width.aligned, BitVec.toNat_eq]

theorem aligned_word (a : Word) : Width.aligned .word a = true ↔ a.toNat % 4 = 0 := by
  simp [Width.aligned, BitVec.toNat_eq]

theorem aligned_byte (a : Word) : Width.aligned .byte a = true := rfl

/-- The bytes of a halfword join to it again. -/
theorem joinBytes_split (h : Halfword) : joinBytes (h.extractLsb' 0 8) (h.extractLsb' 8 8) = h := by
  apply BitVec.eq_of_getLsbD_eq
  intro i hi
  unfold joinBytes
  interval_cases i <;> simp

end Sys2Proof.Machine
end

