-- ==== Sys2Proof/Laws/Memory.lean ====
section
/-! SUPPORT. The laws of the reference bus's bytes: read after write, and the canonical form kept by every memory
operation. -/

namespace Sys2Proof.Machine

theorem read_insert_same (m : Memory) (a : Nat) (b : Byte) : Memory.read (Memory.insert m a b) a = b := by
  induction m with
  | nil => simp [Memory.insert, Memory.read]
  | cons c rest ih =>
    simp only [Memory.insert]
    split
    · simp [Memory.read]
    · split
      · simp [Memory.read]
      · next h1 h2 => simp [Memory.read, Ne.symm h2, ih]

theorem read_insert_other (m : Memory) {a x : Nat} (b : Byte) (h : x ≠ a) :
    Memory.read (Memory.insert m a b) x = Memory.read m x := by
  induction m with
  | nil => simp [Memory.insert, Memory.read, h.symm]
  | cons c rest ih =>
    simp only [Memory.insert]
    split
    · simp [Memory.read, h.symm]
    · split
      · next h1 h2 => subst h2; simp [Memory.read, h.symm]
      · simp [Memory.read, ih]

theorem read_erase_other (m : Memory) {a x : Nat} (h : x ≠ a) :
    Memory.read (Memory.erase m a) x = Memory.read m x := by
  induction m with
  | nil => rfl
  | cons c rest ih =>
    simp only [Memory.erase]
    split
    · next h1 => subst h1; simp [Memory.read, h.symm]
    · simp [Memory.read, ih]

/-- A write leaves every other address alone. -/
theorem read_write_other (m : Memory) {a x : Nat} (b : Byte) (h : x ≠ a) :
    Memory.read (Memory.write m a b) x = Memory.read m x := by
  unfold Memory.write
  split
  · exact read_erase_other m h
  · exact read_insert_other m b h

theorem wfFrom_mono {m : Memory} {lo lo' : Nat} (hle : lo' ≤ lo) (h : Memory.wfFrom lo m = true) :
    Memory.wfFrom lo' m = true := by
  cases m with
  | nil => rfl
  | cons c rest =>
    simp only [Memory.wfFrom, Bool.and_eq_true, decide_eq_true_eq] at h ⊢
    exact ⟨⟨⟨by omega, h.1.1.2⟩, h.1.2⟩, h.2⟩

/-- In a canonical list that starts above an address, that address is unlisted. -/
theorem read_below {m : Memory} {lo a : Nat} (h : Memory.wfFrom lo m = true) (hlt : a < lo) :
    Memory.read m a = unlistedByte := by
  induction m generalizing lo with
  | nil => rfl
  | cons c rest ih =>
    simp only [Memory.wfFrom, Bool.and_eq_true, decide_eq_true_eq] at h
    have hne : ¬ c.1 = a := by omega
    simp only [Memory.read, if_neg hne]
    exact ih h.2 (by omega)

theorem read_erase_same {m : Memory} {lo : Nat} (h : Memory.wfFrom lo m = true) (a : Nat) :
    Memory.read (Memory.erase m a) a = unlistedByte := by
  induction m generalizing lo with
  | nil => rfl
  | cons c rest ih =>
    simp only [Memory.wfFrom, Bool.and_eq_true, decide_eq_true_eq] at h
    simp only [Memory.erase]
    split
    · next h1 => exact read_below h.2 (by omega)
    · next h1 => simp only [Memory.read, if_neg h1]; exact ih h.2

/-- A read after a write to the same address gives the byte written. -/
theorem read_write_same {m : Memory} (h : Memory.wf m = true) (a : Nat) (b : Byte) :
    Memory.read (Memory.write m a b) a = b := by
  unfold Memory.write
  split
  · next hb => rw [read_erase_same h, hb]
  · exact read_insert_same m a b

theorem wfFrom_insert {m : Memory} {lo a : Nat} {b : Byte} (h : Memory.wfFrom lo m = true) (hlo : lo ≤ a)
    (ha : a < 2 ^ 32) (hb : b ≠ unlistedByte) : Memory.wfFrom lo (Memory.insert m a b) = true := by
  induction m generalizing lo with
  | nil => simp [Memory.insert, Memory.wfFrom, hlo, hb]; omega
  | cons c rest ih =>
    simp only [Memory.wfFrom, Bool.and_eq_true, decide_eq_true_eq] at h
    simp only [Memory.insert]
    split
    · simp only [Memory.wfFrom, Bool.and_eq_true, decide_eq_true_eq]
      exact ⟨⟨⟨hlo, ha⟩, hb⟩, ⟨⟨by omega, h.1.1.2⟩, h.1.2⟩, h.2⟩
    · split
      · next h1 h2 =>
        subst h2
        simp only [Memory.wfFrom, Bool.and_eq_true, decide_eq_true_eq]
        exact ⟨⟨⟨hlo, ha⟩, hb⟩, h.2⟩
      · simp only [Memory.wfFrom, Bool.and_eq_true, decide_eq_true_eq]
        exact ⟨h.1, ih h.2 (by omega)⟩

theorem wfFrom_erase {m : Memory} {lo : Nat} (h : Memory.wfFrom lo m = true) (a : Nat) :
    Memory.wfFrom lo (Memory.erase m a) = true := by
  induction m generalizing lo with
  | nil => rfl
  | cons c rest ih =>
    have hc := h
    simp only [Memory.wfFrom, Bool.and_eq_true, decide_eq_true_eq] at hc
    simp only [Memory.erase]
    split
    · exact wfFrom_mono (by omega) hc.2
    · simp only [Memory.wfFrom, Bool.and_eq_true, decide_eq_true_eq]
      exact ⟨hc.1, ih hc.2⟩

/-- The write of one byte keeps the canonical form. -/
theorem wf_write {m : Memory} (h : Memory.wf m = true) {a : Nat} (ha : a < 2 ^ 32) (b : Byte) :
    Memory.wf (Memory.write m a b) = true := by
  unfold Memory.write
  split
  · exact wfFrom_erase h a
  · next hb => exact wfFrom_insert h (Nat.zero_le a) ha hb

/-- A write of several bytes keeps the canonical form. -/
theorem wf_writeBytes {m : Memory} (h : Memory.wf m = true) (a : Word) (bs : List Byte) :
    Memory.wf (Memory.writeBytes m a bs) = true := by
  induction bs generalizing m a with
  | nil => exact h
  | cons b rest ih => exact ih (wf_write h a.isLt b) (a + 1#32)

/-- A write of one width keeps the canonical form. -/
theorem wf_writeWidth {m : Memory} (h : Memory.wf m = true) (w : Width) (a v : Word) :
    Memory.wf (Memory.writeWidth m w a v) = true :=
  wf_writeBytes h a _

/-- The bus write keeps the canonical form, also at a misaligned address. -/
theorem wf_memoryAfterWrite {s : State} (h : Memory.wf s.mem = true) (w : Width) (a v : Word) :
    Memory.wf (s.memoryAfterWrite w a v) = true := by
  unfold State.memoryAfterWrite
  split
  · exact wf_writeWidth h w a v
  · exact wf_writeBytes h _ _

/-- Reset memory is canonical. -/
theorem wf_reset : Memory.wf State.reset.mem = true := rfl

/-- A write of several bytes leaves every address outside them alone. -/
theorem readByte_writeBytes_other (m : Memory) (a x : Word) (bs : List Byte)
    (h : ∀ k : Nat, k < bs.length → x ≠ a + BitVec.ofNat 32 k) :
    Memory.readByte (Memory.writeBytes m a bs) x = Memory.readByte m x := by
  induction bs generalizing m a with
  | nil => rfl
  | cons b rest ih =>
    have h0 : x ≠ a := by simpa using h 0 (by simp)
    have hne : x.toNat ≠ a.toNat := fun e => h0 (BitVec.eq_of_toNat_eq e)
    have htail : ∀ k : Nat, k < rest.length → x ≠ a + 1#32 + BitVec.ofNat 32 k := by
      intro k hk e
      apply h (k + 1) (by simpa using hk)
      rw [e]
      apply BitVec.eq_of_toNat_eq
      simp [BitVec.toNat_add]
      omega
    simp only [Memory.writeBytes]
    rw [ih _ _ htail]
    exact read_write_other m b hne

/-- A write of up to 4 bytes leaves each of them at its place. -/
theorem readByte_writeBytes_same {m : Memory} (hm : Memory.wf m = true) (a : Word) (bs : List Byte) (hl : bs.length ≤ 4)
    (k : Nat) (hk : k < bs.length) :
    Memory.readByte (Memory.writeBytes m a bs) (a + BitVec.ofNat 32 k) = bs[k] := by
  induction bs generalizing m a k with
  | nil => simp at hk
  | cons b rest ih =>
    simp only [List.length_cons] at hl hk
    simp only [Memory.writeBytes]
    cases k with
    | zero =>
      rw [readByte_writeBytes_other]
      · rw [show a + BitVec.ofNat 32 0 = a by simp]
        exact read_write_same hm a.toNat b
      · intro j hj e
        have h := congrArg BitVec.toNat e
        simp [BitVec.toNat_add] at h
        have := a.isLt
        omega
    | succ k =>
      have h := ih (wf_write hm a.isLt b) (a + 1#32) (by omega) k (by omega)
      rw [show a + BitVec.ofNat 32 (k + 1) = a + 1#32 + BitVec.ofNat 32 k by
        apply BitVec.eq_of_toNat_eq; simp [BitVec.toNat_add]; omega]
      simpa using h

/-- A bus write changes no byte outside the addresses it may touch. -/
theorem readByte_memoryAfterWrite_other (s : State) (w : Width) (a v x : Word)
    (hx : ∀ k : Nat, k < (w.storeSpan a).2 → x ≠ (w.storeSpan a).1 + BitVec.ofNat 32 k) :
    Memory.readByte (s.memoryAfterWrite w a v) x = Memory.readByte s.mem x := by
  unfold State.memoryAfterWrite
  unfold Width.storeSpan at hx
  split
  · next h =>
    rw [if_pos h] at hx
    apply readByte_writeBytes_other
    intro k hk
    apply hx
    simp [wordBytes] at hk
    cases w <;> simp [Width.bytes] at hk ⊢ <;> omega
  · next h =>
    rw [if_neg h] at hx
    apply readByte_writeBytes_other
    intro k hk
    apply hx
    simpa using hk

end Sys2Proof.Machine
end

