-- ==== Sys2Proof/Laws/State.lean ====
section
/-! SUPPORT. One lemma per field per update of State, so that no proof unfolds a record update. -/

namespace Sys2Proof.Machine

/-! ### `setGpr` writes `regs` alone -/

@[simp] theorem setGpr_pc (s : State) (i : RegIdx) (v : Word) : (s.setGpr i v).pc = s.pc := by
  unfold State.setGpr; split <;> rfl
@[simp] theorem setGpr_psw (s : State) (i : RegIdx) (v : Word) : (s.setGpr i v).psw = s.psw := by
  unfold State.setGpr; split <;> rfl
@[simp] theorem setGpr_faultMark (s : State) (i : RegIdx) (v : Word) : (s.setGpr i v).faultMark = s.faultMark := by
  unfold State.setGpr; split <;> rfl
@[simp] theorem setGpr_mem (s : State) (i : RegIdx) (v : Word) : (s.setGpr i v).mem = s.mem := by
  unfold State.setGpr; split <;> rfl
@[simp] theorem setGpr_busAnswers (s : State) (i : RegIdx) (v : Word) : (s.setGpr i v).busAnswers = s.busAnswers := by
  unfold State.setGpr; split <;> rfl
@[simp] theorem setGpr_busLog (s : State) (i : RegIdx) (v : Word) : (s.setGpr i v).busLog = s.busLog := by
  unfold State.setGpr; split <;> rfl
@[simp] theorem setGpr_cycleTotal (s : State) (i : RegIdx) (v : Word) : (s.setGpr i v).cycleTotal = s.cycleTotal := by
  unfold State.setGpr; split <;> rfl
@[simp] theorem setGpr_freeCount (s : State) (i : RegIdx) (v : Word) : (s.setGpr i v).freeCount = s.freeCount := by
  unfold State.setGpr; split <;> rfl

/-! ### `commit` writes `pc`, `busLog` and `cycleTotal` -/

section
variable (s : State) (op : Opcode) (b : Bool) (a : Word)
@[simp] theorem commit_pc : (s.commit op b a).pc = a := rfl
@[simp] theorem commit_regs : (s.commit op b a).regs = s.regs := rfl
@[simp] theorem commit_psw : (s.commit op b a).psw = s.psw := rfl
@[simp] theorem commit_faultMark : (s.commit op b a).faultMark = s.faultMark := rfl
@[simp] theorem commit_mem : (s.commit op b a).mem = s.mem := rfl
@[simp] theorem commit_busAnswers : (s.commit op b a).busAnswers = s.busAnswers := rfl
@[simp] theorem commit_busLog : (s.commit op b a).busLog = s.busLog ++ [.cycles (Config.cycles op b)] := rfl
@[simp] theorem commit_cycleTotal : (s.commit op b a).cycleTotal = s.cycleTotal + (Config.cycles op b).toNat := rfl
@[simp] theorem commit_freeCount : (s.commit op b a).freeCount = s.freeCount := rfl
@[simp] theorem commit_gpr (i : RegIdx) : (s.commit op b a).gpr i = s.gpr i := rfl
end

/-! ### A bus read -/

section
variable (s : State) (w : Width) (a : Word)
@[simp] theorem afterRead_regs : (s.afterRead w a).regs = s.regs := rfl
@[simp] theorem afterRead_pc : (s.afterRead w a).pc = s.pc := rfl
@[simp] theorem afterRead_psw : (s.afterRead w a).psw = s.psw := rfl
@[simp] theorem afterRead_faultMark : (s.afterRead w a).faultMark = s.faultMark := rfl
@[simp] theorem afterRead_mem : (s.afterRead w a).mem = s.mem := rfl
@[simp] theorem afterRead_busAnswers : (s.afterRead w a).busAnswers = s.busAnswers.tail := rfl
@[simp] theorem afterRead_busLog : (s.afterRead w a).busLog = s.busLog ++ [w.readEvent a] := rfl
@[simp] theorem afterRead_cycleTotal : (s.afterRead w a).cycleTotal = s.cycleTotal := rfl
@[simp] theorem afterRead_gpr (i : RegIdx) : (s.afterRead w a).gpr i = s.gpr i := rfl
end

/-! ### A bus write -/

section
variable (s : State) (w : Width) (a v : Word)
@[simp] theorem afterWrite_regs : (s.afterWrite w a v).regs = s.regs := rfl
@[simp] theorem afterWrite_pc : (s.afterWrite w a v).pc = s.pc := rfl
@[simp] theorem afterWrite_psw : (s.afterWrite w a v).psw = s.psw := rfl
@[simp] theorem afterWrite_faultMark : (s.afterWrite w a v).faultMark = s.faultMark := rfl
@[simp] theorem afterWrite_mem : (s.afterWrite w a v).mem = s.memoryAfterWrite w a v := rfl
@[simp] theorem afterWrite_busAnswers : (s.afterWrite w a v).busAnswers = s.busAnswers := rfl
@[simp] theorem afterWrite_busLog : (s.afterWrite w a v).busLog = s.busLog ++ [w.writeEvent a v] := rfl
@[simp] theorem afterWrite_cycleTotal : (s.afterWrite w a v).cycleTotal = s.cycleTotal := rfl
@[simp] theorem afterWrite_gpr (i : RegIdx) : (s.afterWrite w a v).gpr i = s.gpr i := rfl
end

/-! ### The start of a step, the fault state, the host's writes -/

section
variable (s : State)
@[simp] theorem beginStep_regs : s.beginStep.regs = s.regs := rfl
@[simp] theorem beginStep_pc : s.beginStep.pc = s.pc := rfl
@[simp] theorem beginStep_psw : s.beginStep.psw = s.psw := rfl
@[simp] theorem beginStep_faultMark : s.beginStep.faultMark = s.faultMark := rfl
@[simp] theorem beginStep_mem : s.beginStep.mem = s.mem := rfl
@[simp] theorem beginStep_busAnswers : s.beginStep.busAnswers = s.busAnswers := rfl
@[simp] theorem beginStep_busLog : s.beginStep.busLog = [] := rfl
@[simp] theorem beginStep_cycleTotal : s.beginStep.cycleTotal = s.cycleTotal := rfl
@[simp] theorem beginStep_freeCount : s.beginStep.freeCount = s.freeCount := rfl
@[simp] theorem beginStep_gpr (i : RegIdx) : s.beginStep.gpr i = s.gpr i := rfl
@[simp] theorem enterFault_regs (f : Fault) : (s.enterFault f).regs = s.regs := rfl
@[simp] theorem enterFault_pc (f : Fault) : (s.enterFault f).pc = s.pc := rfl
@[simp] theorem enterFault_psw (f : Fault) : (s.enterFault f).psw = s.psw := rfl
@[simp] theorem enterFault_faultMark (f : Fault) : (s.enterFault f).faultMark = some f := rfl
@[simp] theorem enterFault_mem (f : Fault) : (s.enterFault f).mem = s.mem := rfl
@[simp] theorem enterFault_busAnswers (f : Fault) : (s.enterFault f).busAnswers = s.busAnswers := rfl
@[simp] theorem enterFault_busLog (f : Fault) : (s.enterFault f).busLog = s.busLog := rfl
@[simp] theorem enterFault_cycleTotal (f : Fault) : (s.enterFault f).cycleTotal = s.cycleTotal := rfl
@[simp] theorem enterFault_gpr (f : Fault) (i : RegIdx) : (s.enterFault f).gpr i = s.gpr i := rfl
@[simp] theorem setRegPsw_psw (v : Word) : (s.setRegPsw v).psw = Psw.unpack v := rfl
@[simp] theorem setRegPsw_pc (v : Word) : (s.setRegPsw v).pc = s.pc := rfl
@[simp] theorem setRegPsw_gpr (v : Word) (i : RegIdx) : (s.setRegPsw v).gpr i = s.gpr i := rfl
@[simp] theorem setRegPsw_mem (v : Word) : (s.setRegPsw v).mem = s.mem := rfl
@[simp] theorem setRegPsw_busLog (v : Word) : (s.setRegPsw v).busLog = s.busLog := rfl
@[simp] theorem resetCore_mem : s.resetCore.mem = s.mem := rfl
@[simp] theorem resetCore_faultMark : s.resetCore.faultMark = none := rfl
@[simp] theorem resetCore_busLog : s.resetCore.busLog = [] := rfl
end

end Sys2Proof.Machine
end

