-- ==== Sys2Proof/Laws/Ops.lean ====
section
/-! SUPPORT. What each shared operation can do, said once. -/

namespace Sys2Proof.Machine

/-! ### The register file -/

theorem gpr_zero (s : State) : s.gpr 0#5 = 0#32 := rfl

theorem setGpr_zero (s : State) (v : Word) : s.setGpr 0#5 v = s := rfl

theorem gpr_congr {s t : State} (h : t.regs = s.regs) (i : RegIdx) : t.gpr i = s.gpr i := by
  unfold State.gpr; rw [h]

theorem setGpr_other (s : State) {i j : RegIdx} (v : Word) (h : j ≠ i) : (s.setGpr i v).gpr j = s.gpr j := by
  have hne : j.toNat ≠ i.toNat := fun e => h (BitVec.eq_of_toNat_eq e)
  unfold State.setGpr State.gpr
  split
  · rfl
  · next hi =>
    split
    · rfl
    · next hj => simp only [Vector.getElem_set]; rw [if_neg (by omega)]

theorem setGpr_same (s : State) {i : RegIdx} (v : Word) (h : i ≠ 0#5) : (s.setGpr i v).gpr i = v := by
  have hne : i.toNat ≠ 0 := fun e => h (BitVec.eq_of_toNat_eq (by simpa using e))
  unfold State.setGpr State.gpr
  simp [hne]

/-! ### The ends of an instruction -/

theorem advance_eq (s : State) (op : Opcode) : s.advance op = .next (s.commit op false (s.defaultNext op)) := rfl

theorem branch_taken (s : State) (op : Opcode) (d : BitVec 9) :
    s.branch op true d = .next (s.commit op true (s.branchTarget d)) := rfl

theorem branch_not_taken (s : State) (op : Opcode) (d : BitVec 9) :
    s.branch op false d = .next (s.commit op false (s.defaultNext op)) := rfl

/-- All a load can do. -/
theorem load_next {s t : State} {op : Opcode} {w : Width} {d : Halfword} {r1 r2 : RegIdx}
    (h : s.load op w d r1 r2 = .next t) :
    t = ((s.afterRead w (s.effAddr r1 d)).setGpr r2 (w.extend (s.readAnswer w (s.effAddr r1 d)))).commit op false
      (s.defaultNext op) := by
  simp only [State.load, State.advance, Host.Outcome.next.injEq] at h
  rw [← h]
  simp [State.defaultNext]

/-- All a store can do. -/
theorem store_next {s t : State} {op : Opcode} {w : Width} {d : Halfword} {r1 r2 : RegIdx}
    (h : s.store op w r2 d r1 = .next t) :
    t = (s.afterWrite w (s.effAddr r1 d) (s.gpr r2)).commit op false (s.defaultNext op) := by
  simp only [State.store, State.advance, Host.Outcome.next.injEq] at h
  rw [← h]
  rfl

/-! ### The bus -/

/-- An answer of the queue is what the read gets, truncated to its width. -/
theorem readAnswer_queued {s : State} {v : Word} {rest : List (Option Word)} (w : Width) (a : Word)
    (h : s.busAnswers = some v :: rest) : s.readAnswer w a = w.trunc v := by
  unfold State.readAnswer; rw [h]

/-- With no queued answer the reference bus answers. -/
theorem readAnswer_memory {s : State} (w : Width) (a : Word) (h : s.busAnswers = []) :
    s.readAnswer w a = s.memoryAnswer w a := by
  unfold State.readAnswer; rw [h]

theorem memoryAnswer_aligned {s : State} {w : Width} {a : Word} (h : w.aligned a = true) :
    s.memoryAnswer w a = Memory.readWidth s.mem w a := by
  unfold State.memoryAnswer; rw [if_pos h]

theorem memoryAfterWrite_aligned {s : State} {w : Width} {a : Word} (v : Word) (h : w.aligned a = true) :
    s.memoryAfterWrite w a v = Memory.writeWidth s.mem w a v := by
  unfold State.memoryAfterWrite; rw [if_pos h]

end Sys2Proof.Machine
end

