-- ==== Sys2Proof/Laws/PerInstr.lean ====
section
/-! SUPPORT. Statements about every instruction as syntax, one lemma per constructor. -/

namespace Sys2Proof.Laws.EncodeLength

/-- The encoding has one halfword, or two where the opcode's format asks for a second (spec/30_encoding.md R100). -/
def Statement (i : Instr) : Prop := (encode i).length = if i.opcode.twoHalfwords then 2 else 1

theorem movReg (a : _) (b : _) : Statement (.movReg a b) := rfl
theorem sub (a : _) (b : _) : Statement (.sub a b) := rfl
theorem jmp (a : _) : Statement (.jmp a) := rfl
theorem movImm5 (a : _) (b : _) : Statement (.movImm5 a b) := rfl
theorem cli : Statement .cli := rfl
theorem ldsr (a : _) (b : _) : Statement (.ldsr a b) := rfl
theorem sei : Statement .sei := rfl
theorem bv (a : _) : Statement (.bv a) := rfl
theorem bc (a : _) : Statement (.bc a) := rfl
theorem bz (a : _) : Statement (.bz a) := rfl
theorem bnh (a : _) : Statement (.bnh a) := rfl
theorem bn (a : _) : Statement (.bn a) := rfl
theorem br (a : _) : Statement (.br a) := rfl
theorem blt (a : _) : Statement (.blt a) := rfl
theorem ble (a : _) : Statement (.ble a) := rfl
theorem bnv (a : _) : Statement (.bnv a) := rfl
theorem bnc (a : _) : Statement (.bnc a) := rfl
theorem bnz (a : _) : Statement (.bnz a) := rfl
theorem bh (a : _) : Statement (.bh a) := rfl
theorem bp (a : _) : Statement (.bp a) := rfl
theorem nop : Statement .nop := rfl
theorem bge (a : _) : Statement (.bge a) := rfl
theorem bgt (a : _) : Statement (.bgt a) := rfl
theorem movea (a : _) (b : _) (c : _) : Statement (.movea a b c) := rfl
theorem movhi (a : _) (b : _) (c : _) : Statement (.movhi a b c) := rfl
theorem ldB (a : _) (b : _) (c : _) : Statement (.ldB a b c) := rfl
theorem ldH (a : _) (b : _) (c : _) : Statement (.ldH a b c) := rfl
theorem ldW (a : _) (b : _) (c : _) : Statement (.ldW a b c) := rfl
theorem stB (a : _) (b : _) (c : _) : Statement (.stB a b c) := rfl
theorem stH (a : _) (b : _) (c : _) : Statement (.stH a b c) := rfl
theorem stW (a : _) (b : _) (c : _) : Statement (.stW a b c) := rfl
theorem inB (a : _) (b : _) (c : _) : Statement (.inB a b c) := rfl
theorem inH (a : _) (b : _) (c : _) : Statement (.inH a b c) := rfl
theorem inW (a : _) (b : _) (c : _) : Statement (.inW a b c) := rfl
theorem outB (a : _) (b : _) (c : _) : Statement (.outB a b c) := rfl
theorem outH (a : _) (b : _) (c : _) : Statement (.outH a b c) := rfl
theorem outW (a : _) (b : _) (c : _) : Statement (.outW a b c) := rfl

end Sys2Proof.Laws.EncodeLength
end

