-- ==== Sys2Proof/Laws/Step.lean ====
section
/-! SUPPORT. What the fetch and the step can do, said once. -/

namespace Sys2Proof.Machine

/-- A fetch that stops: the program counter is odd, or the first halfword is unrecognized. -/
theorem fetch_stop {s s1 : State} {f : Fault} (h : s.fetch = .stop f s1) :
    (s.pc.getLsbD 0 = true ∧ f = .misalignedPc s.pc ∧ s1 = s.beginStep) ∨
      (s.pc.getLsbD 0 = false ∧ classify (s.beginStep.fetchAnswer s.pc) = none ∧
        f = .unrecognizedOpcode s.pc (s.beginStep.fetchAnswer s.pc) ∧ s1 = s.beginStep.afterRead .half s.pc) := by
  unfold State.fetch at h
  split at h
  · next hp =>
    injection h with h1 h2
    exact .inl ⟨hp, h1.symm, h2.symm⟩
  · next hp =>
    simp only at h
    split at h
    · next hc =>
      injection h with h1 h2
      exact .inr ⟨by simpa using hp, hc, h1.symm, h2.symm⟩
    · split at h <;> cases h

/-- A fetch that is ready: the instruction, and the one or two fetches that were issued. -/
theorem fetch_ready {s s1 : State} {i : Instr} (h : s.fetch = .ready i s1) :
    s.pc.getLsbD 0 = false ∧ classify (s.beginStep.fetchAnswer s.pc) = some i.opcode ∧
      ((i.opcode.twoHalfwords = true ∧
          i = i.opcode.extract (s.beginStep.fetchAnswer s.pc)
            ((s.beginStep.afterRead .half s.pc).fetchAnswer (s.pc + 2#32)) ∧
          s1 = (s.beginStep.afterRead .half s.pc).afterRead .half (s.pc + 2#32)) ∨
        (i.opcode.twoHalfwords = false ∧ i = i.opcode.extract (s.beginStep.fetchAnswer s.pc) 0#16 ∧
          s1 = s.beginStep.afterRead .half s.pc)) := by
  unfold State.fetch at h
  split at h
  · cases h
  · next hp =>
    have hp' : s.pc.getLsbD 0 = false := by simpa using hp
    simp only at h
    split at h
    · cases h
    · next op hc =>
      split at h
      · next h2 =>
        injection h with h3 h4
        have ho : i.opcode = op := by rw [← h3]; exact opcode_extract op _ _
        rw [ho]
        exact ⟨hp', hc, .inl ⟨h2, h3.symm, h4.symm⟩⟩
      · next h2 =>
        injection h with h3 h4
        have ho : i.opcode = op := by rw [← h3]; exact opcode_extract op _ _
        rw [ho]
        exact ⟨hp', hc, .inr ⟨by simpa using h2, h3.symm, h4.symm⟩⟩

/-- The fetch leaves the core and memory as they were. -/
theorem fetch_ready_frame {s s1 : State} {i : Instr} (h : s.fetch = .ready i s1) :
    s1.regs = s.regs ∧ s1.pc = s.pc ∧ s1.psw = s.psw ∧ s1.faultMark = s.faultMark ∧ s1.mem = s.mem ∧
      s1.cycleTotal = s.cycleTotal := by
  obtain ⟨-, -, ⟨-, -, rfl⟩ | ⟨-, -, rfl⟩⟩ := fetch_ready h <;> exact ⟨rfl, rfl, rfl, rfl, rfl, rfl⟩

/-- The fetch of a one-halfword instruction. -/
theorem fetch_oneHalfword {s : State} {op : Opcode} (hp : s.pc.getLsbD 0 = false)
    (hc : classify (s.fetchAnswer s.pc) = some op) (h2 : op.twoHalfwords = false) :
    s.fetch = .ready (op.extract (s.fetchAnswer s.pc) 0#16) (s.beginStep.afterRead .half s.pc) := by
  have hf : s.beginStep.fetchAnswer s.pc = s.fetchAnswer s.pc := rfl
  unfold State.fetch
  rw [if_neg (by rw [hp]; decide)]
  simp [hf, hc, h2]

/-- The fetch of a two-halfword instruction. -/
theorem fetch_twoHalfwords {s : State} {op : Opcode} (hp : s.pc.getLsbD 0 = false)
    (hc : classify (s.fetchAnswer s.pc) = some op) (h2 : op.twoHalfwords = true) :
    s.fetch = .ready
      (op.extract (s.fetchAnswer s.pc) ((s.beginStep.afterRead .half s.pc).fetchAnswer (s.pc + 2#32)))
      ((s.beginStep.afterRead .half s.pc).afterRead .half (s.pc + 2#32)) := by
  have hf : s.beginStep.fetchAnswer s.pc = s.fetchAnswer s.pc := rfl
  unfold State.fetch
  rw [if_neg (by rw [hp]; decide)]
  simp [hf, hc, h2]

/-- A fetch that stops, from its cause: an unrecognized first halfword. -/
theorem fetch_unrecognized {s : State} (hp : s.pc.getLsbD 0 = false) (hc : classify (s.fetchAnswer s.pc) = none) :
    s.fetch = .stop (.unrecognizedOpcode s.pc (s.fetchAnswer s.pc)) (s.beginStep.afterRead .half s.pc) := by
  have hf : s.beginStep.fetchAnswer s.pc = s.fetchAnswer s.pc := rfl
  unfold State.fetch
  rw [if_neg (by rw [hp]; decide)]
  simp [hf, hc]

/-- A step that completes executes what it fetched. -/
theorem step_next {s t : State} (h : step s = .next t) :
    s.faultMark = none ∧ ∃ i s1, s.fetch = .ready i s1 ∧ exec i s1 = .next t := by
  unfold step at h
  split at h
  · cases h
  · next hm =>
    split at h
    · cases h
    · next i s1 hf => exact ⟨hm, i, s1, hf, h⟩

/-- A step that faults: the fetch stopped, or the instruction faulted. -/
theorem step_fault {s : State} {f : Fault} (h : step s = .fault f) :
    s.faultMark = none ∧ ((∃ s1, s.fetch = .stop f s1) ∨ ∃ i s1, s.fetch = .ready i s1 ∧ exec i s1 = .fault f) := by
  unfold step at h
  split at h
  · cases h
  · next hm =>
    split at h
    · next f' s1 hf => injection h with h1; subst h1; exact ⟨hm, .inl ⟨s1, hf⟩⟩
    · next i s1 hf => exact ⟨hm, .inr ⟨i, s1, hf, h⟩⟩

/-- `exec` never refuses. -/
theorem exec_not_refused (i : Instr) (s : State) (r : Refusal) : exec i s ≠ .refused r := by
  cases i <;> try (intro h; cases h)
  intro h
  simp only [exec, execLdsr] at h
  split at h <;> cases h

/-- `exec` faults for LDSR with another selector alone. -/
theorem exec_fault {i : Instr} {s : State} {f : Fault} (h : exec i s = .fault f) :
    ∃ r k, i = .ldsr r k ∧ k ≠ Config.pswSysregId ∧ f = .unimplementedSystemRegister s.pc k := by
  cases i <;> try (cases h)
  next r k =>
    simp only [exec, execLdsr] at h
    split at h
    · cases h
    · next hk => injection h with h1; exact ⟨r, k, rfl, hk, h1.symm⟩

/-! ### The reference bus -/

/-- A step on the reference bus that goes on is a step of the core whose every access meets its `requires` clause. -/
theorem stepOnRefBus_next {s t : State} (h : stepOnRefBus s = .next t) :
    step { s with busAnswers := [] } = .next t ∧ ∀ e ∈ t.busLog, e.meetsRequires = true := by
  unfold stepOnRefBus at h
  split at h
  · next u hu =>
    split at h
    · cases h
    · next hn =>
      injection h with h1
      subst h1
      exact ⟨hu, by simpa [firstRefused] using hn⟩
  · cases h
  · cases h

/-- A completed step whose every access meets its `requires` clause is the step on the reference bus. -/
theorem stepOnRefBus_of_step {s t : State} (h : step { s with busAnswers := [] } = .next t)
    (hr : ∀ e ∈ t.busLog, e.meetsRequires = true) : stepOnRefBus s = .next t := by
  have hn : firstRefused t.busLog = none := by simpa [firstRefused] using hr
  unfold stepOnRefBus
  simp [h, hn]

/-- Where the core stops, it stops on the reference bus too. -/
theorem stepOnRefBus_fault {s : State} {f : Fault} (h : step { s with busAnswers := [] } = .fault f) :
    stepOnRefBus s = .fault f := by
  unfold stepOnRefBus
  simp [h]

end Sys2Proof.Machine
end

