-- ==== Sys2Proof/Tests/Slice0.lean ====
section
/-! SUPPORT. The model's own tests: well-formedness, one word per instruction written out from spec/30_encoding.md, single steps from
spec/95_test_vectors.md (the vector's name stands in the test's name), and a witness for every statement that has hypotheses. -/

open Sys2Proof Sys2Proof.Machine

namespace Sys2Proof.Tests

/-! ### Written operands that do not fit are refused -/

theorem test_index_refuses_32 : WellFormed.indexField 32 = none ∧ WellFormed.indexField 31 = some 31#5 := by decide

theorem test_imm5_refuses_32_and_minus_17 :
    WellFormed.imm5Field 32 = none ∧ WellFormed.imm5Field (-17) = none ∧ WellFormed.imm5Field (-16) = some 0x10#5 := by decide

theorem test_disp9_refuses_256_and_minus_257 :
    WellFormed.disp9Field 256 = none ∧ WellFormed.disp9Field (-257) = none ∧ WellFormed.disp9Field (-1) = some 0x1FF#9 := by
  decide

theorem test_half_refuses_65536_and_minus_32769 :
    WellFormed.halfField 65536 = none ∧ WellFormed.halfField (-32769) = none ∧
      WellFormed.halfField (-4) = some 0xFFFC#16 := by decide

theorem test_wellFormed_accepts_a_decoded_instruction : (Instr.movImm5 0x10#5 31#5).wellFormed = true := by decide

/-! ### One word per instruction, bit by bit from R101 to R105 and R111 -/

theorem test_decode_movReg : decode [0b000000_01100_00001#16] = .instr (.movReg 1#5 12#5) [] := by decide
theorem test_decode_sub : decode [0b000010_00001_00010#16] = .instr (.sub 2#5 1#5) [] := by decide
theorem test_decode_jmp : decode [0b000110_11111_01011#16] = .instr (.jmp 11#5) [] := by decide
theorem test_decode_movImm5 : decode [0b010000_00001_11011#16] = .instr (.movImm5 0x1B#5 1#5) [] := by decide
theorem test_decode_cli : decode [0b010110_11111_11111#16] = .instr .cli [] := by decide
theorem test_decode_ldsr : decode [0b011100_00001_00101#16] = .instr (.ldsr 1#5 5#5) [] := by decide
theorem test_decode_sei : decode [0b011110_00000_00000#16] = .instr .sei [] := by decide
theorem test_decode_bv : decode [0b100_0000_000000100#16] = .instr (.bv 4#9) [] := by decide
theorem test_decode_bc : decode [0b100_0001_111111110#16] = .instr (.bc 0x1FE#9) [] := by decide
theorem test_decode_bz : decode [0b100_0010_000010000#16] = .instr (.bz 0x10#9) [] := by decide
theorem test_decode_bnh : decode [0b100_0011_100000000#16] = .instr (.bnh 0x100#9) [] := by decide
theorem test_decode_bn : decode [0b100_0100_010000010#16] = .instr (.bn 0x82#9) [] := by decide
theorem test_decode_br : decode [0b100_0101_111111111#16] = .instr (.br 0x1FF#9) [] := by decide
theorem test_decode_blt : decode [0b100_0110_000000100#16] = .instr (.blt 4#9) [] := by decide
theorem test_decode_ble : decode [0b100_0111_000010000#16] = .instr (.ble 0x10#9) [] := by decide
theorem test_decode_bnv : decode [0b100_1000_000000010#16] = .instr (.bnv 2#9) [] := by decide
theorem test_decode_bnc : decode [0b100_1001_000000010#16] = .instr (.bnc 2#9) [] := by decide
theorem test_decode_bnz : decode [0b100_1010_111111110#16] = .instr (.bnz 0x1FE#9) [] := by decide
theorem test_decode_bh : decode [0b100_1011_000000110#16] = .instr (.bh 6#9) [] := by decide
theorem test_decode_bp : decode [0b100_1100_000000010#16] = .instr (.bp 2#9) [] := by decide
theorem test_decode_nop : decode [0b100_1101_111111111#16] = .instr .nop [] := by decide
theorem test_decode_bge : decode [0b100_1110_000010000#16] = .instr (.bge 0x10#9) [] := by decide
theorem test_decode_bgt : decode [0b100_1111_000010000#16] = .instr (.bgt 0x10#9) [] := by decide
theorem test_decode_movea : decode [0b101000_00110_00101#16, 0x8000#16] = .instr (.movea 0x8000#16 5#5 6#5) [] := by decide
theorem test_decode_movhi : decode [0b101111_00110_00101#16, 0xABCD#16] = .instr (.movhi 0xABCD#16 5#5 6#5) [] := by decide
theorem test_decode_ldB : decode [0b110000_00111_00100#16, 8#16] = .instr (.ldB 8#16 4#5 7#5) [] := by decide
theorem test_decode_ldH : decode [0b110001_00111_00100#16, 8#16] = .instr (.ldH 8#16 4#5 7#5) [] := by decide
theorem test_decode_ldW : decode [0b110011_01001_00100#16, 0xFFFC#16] = .instr (.ldW 0xFFFC#16 4#5 9#5) [] := by decide
theorem test_decode_stB : decode [0b110100_00101_00100#16, 8#16] = .instr (.stB 5#5 8#16 4#5) [] := by decide
theorem test_decode_stH : decode [0b110101_00101_00100#16, 0xFFFE#16] = .instr (.stH 5#5 0xFFFE#16 4#5) [] := by decide
theorem test_decode_stW : decode [0b110111_00101_00100#16, 0x10#16] = .instr (.stW 5#5 0x10#16 4#5) [] := by decide
theorem test_decode_inB : decode [0b111000_00111_00100#16, 8#16] = .instr (.inB 8#16 4#5 7#5) [] := by decide
theorem test_decode_inH : decode [0b111001_00111_00100#16, 8#16] = .instr (.inH 8#16 4#5 7#5) [] := by decide
theorem test_decode_inW : decode [0b111011_00111_00100#16, 8#16] = .instr (.inW 8#16 4#5 7#5) [] := by decide
theorem test_decode_outB : decode [0b111100_00101_00100#16, 8#16] = .instr (.outB 5#5 8#16 4#5) [] := by decide
theorem test_decode_outH : decode [0b111101_00101_00100#16, 8#16] = .instr (.outH 5#5 8#16 4#5) [] := by decide
theorem test_decode_outW : decode [0b111111_00101_00100#16, 8#16] = .instr (.outW 5#5 8#16 4#5) [] := by decide

theorem test_decode_rejects_by_name :
    decode [0x0400#16, 0#16] = .rejected (.unrecognized 0x0400#16) ∧
      decode [0xFBFF#16, 0#16] = .rejected (.unrecognized 0xFBFF#16) ∧
      decode [0xA0A5#16] = .rejected .truncated ∧ decode [] = .rejected .truncated := by decide

/-- The table's bit numbering: the second halfword is bits 31 to 16. -/
theorem test_decodeTableWord :
    decodeTableWord 32 0x0010DCA4 = some (.stW 5#5 0x10#16 4#5) ∧ decodeTableWord 16 0xFFFF0822 = some (.sub 2#5 1#5) ∧
      decodeTableWord 16 0x0400 = none := by decide

/-! ### Single steps -/

/-- The start of the vectors: reset, but for `pc`, with the halfwords placed there (P of spec/95_test_vectors.md). -/
def at1000 (hws : List Halfword) : State :=
  State.placeAtPc { State.reset with pc := 0x1000#32 } (halfwordBytes hws)

/-- The same at another `pc`. -/
def atPc (pc : Word) (hws : List Halfword) : State := State.placeAtPc { State.reset with pc := pc } (halfwordBytes hws)

/-- Bytes placed at an address. -/
def withBytes (s : State) (a : Word) (bs : List Byte) : State := { s with mem := Memory.writeBytes s.mem a bs }

/-- The outcome is a next state with this property. -/
def nextHas (o : Host.Outcome State Fault Refusal) (p : State → Bool) : Bool :=
  match o with
  | .next t => p t
  | .fault _ => false
  | .refused _ => false

/-- The outcome is this fault. -/
def faultsWith (o : Host.Outcome State Fault Refusal) (f : Fault) : Bool :=
  match o with
  | .next _ => false
  | .fault f' => f' == f
  | .refused _ => false

/-- The outcome is this refusal. -/
def refusesWith (o : Host.Outcome State Fault Refusal) (r : Refusal) : Bool :=
  match o with
  | .next _ => false
  | .fault _ => false
  | .refused r' => r' == r

/-- The load vectors' base: `x[4]` = 05000000. -/
def loadState (hw1 : Halfword) (bs : List Byte) : State :=
  withBytes ((at1000 [hw1, 0x0008#16]).setGpr 4#5 0x05000000#32) 0x05000008#32 bs

/-- The store vectors' base: `x[4]` = 05000000, `x[5]` = 12345678. -/
def storeState (hw1 : Halfword) : State :=
  ((at1000 [hw1, 0x0008#16]).setGpr 4#5 0x05000000#32).setGpr 5#5 0x12345678#32

theorem test_M1_movReg :
    nextHas (step ((at1000 [0x0181#16]).setGpr 1#5 0xDEADBEEF#32))
      (fun t => t.gpr 12#5 == 0xDEADBEEF#32 && t.pc == 0x1002#32 && t.psw.pack == 0x8000#32) = true := by decide

theorem test_M2_movReg_from_r0 :
    nextHas (step ((at1000 [0x00A0#16]).setGpr 5#5 0x4D#32)) (fun t => t.gpr 5#5 == 0#32) = true := by decide

theorem test_M6_movImm5 :
    nextHas (step (at1000 [0x4070#16])) (fun t => t.gpr 3#5 == 0xFFFFFFF0#32 && t.pc == 0x1002#32) = true := by decide

theorem test_M8_movImm5_to_r0 :
    nextHas (step (at1000 [0x401F#16])) (fun t => t.gpr 0#5 == 0#32 && t.regs == State.reset.regs) = true := by decide

theorem test_M9_movea_negative :
    nextHas (step ((at1000 [0xA0C5#16, 0xFFFF#16]).setGpr 5#5 0x1000#32))
      (fun t => t.gpr 6#5 == 0xFFF#32 && t.pc == 0x1004#32 && t.psw.pack == 0x8000#32) = true := by decide

theorem test_M13_movea_no_overflow_flag :
    nextHas (step ((at1000 [0xA0C5#16, 1#16]).setGpr 5#5 0x7FFFFFFF#32))
      (fun t => t.gpr 6#5 == 0x80000000#32 && t.psw.pack == 0x8000#32) = true := by decide

theorem test_M16_movhi_wraps :
    nextHas (step ((at1000 [0xBCC5#16, 1#16]).setGpr 5#5 0xFFFF0000#32)) (fun t => t.gpr 6#5 == 0#32) = true := by decide

theorem test_M17_movhi :
    nextHas (step ((at1000 [0xBCC5#16, 0xABCD#16]).setGpr 5#5 0x1234#32))
      (fun t => t.gpr 6#5 == 0xABCD1234#32 && t.pc == 0x1004#32) = true := by decide

/-- A12 and A5 together: overflow without borrow, and with it. -/
theorem test_A5_A12_sub :
    nextHas (step (((at1000 [0x0822#16]).setGpr 1#5 0x7FFFFFFF#32).setGpr 2#5 0xFFFFFFFF#32))
        (fun t => t.gpr 1#5 == 0x80000000#32 && t.psw.pack == 0x800E#32) = true ∧
      nextHas (step (((at1000 [0x0822#16]).setGpr 1#5 0x80000000#32).setGpr 2#5 0x7FFFFFFF#32))
        (fun t => t.gpr 1#5 == 1#32 && t.psw.pack == 0x8004#32) = true := by decide

theorem test_A14_A16_sub_flags_alone :
    nextHas (step ((at1000 [0x0801#16]).setGpr 1#5 5#32))
        (fun t => t.gpr 1#5 == 5#32 && t.gpr 0#5 == 0#32 && t.psw.pack == 0x800A#32) = true ∧
      nextHas (step (((at1000 [0x0822#16]).setGpr 2#5 1#32).setRegPsw 0x000EF3F5#32))
        (fun t => t.gpr 1#5 == 0xFFFFFFFF#32 && t.psw.pack == 0x000EF3FA#32) = true := by decide

theorem test_J2_jmp :
    nextHas (step ((at1000 [0x1BEB#16]).setGpr 11#5 0x07000000#32)) (fun t => t.pc == 0x07000000#32) = true := by decide

theorem test_J4_jmp_odd :
    nextHas (step ((at1000 [0x180B#16]).setGpr 11#5 0x2001#32))
      (fun t => t.pc == 0x2001#32 && faultsWith (step t) (.misalignedPc 0x2001#32)) = true := by decide

theorem test_B1_br : nextHas (step (at1000 [0x8BFF#16])) (fun t => t.pc == 0xFFF#32) = true := by decide

theorem test_B7_br_wraps : nextHas (step (atPc 0#32 [0x8BFE#16])) (fun t => t.pc == 0xFFFFFFFE#32) = true := by decide

theorem test_B5_B6_bz :
    nextHas (step (atPc 0xFFFFFFFE#32 [0x8410#16])) (fun t => t.pc == 0#32) = true ∧
      nextHas (step ((atPc 0xFFFFFFFE#32 [0x8404#16]).setRegPsw 1#32)) (fun t => t.pc == 2#32) = true := by decide

theorem test_B8_nop :
    nextHas (step ((at1000 [0x9BFF#16]).setRegPsw 0xF#32)) (fun t => t.pc == 0x1002#32 && t.psw.pack == 0xF#32) = true := by
  decide

theorem test_B9_B10_bnz :
    nextHas (step (atPc 0x1006#32 [0x95FE#16])) (fun t => t.pc == 0x1004#32) = true ∧
      nextHas (step ((atPc 0x1006#32 [0x95FE#16]).setRegPsw 1#32)) (fun t => t.pc == 0x1008#32) = true := by decide

theorem test_B11_bh :
    nextHas (step ((atPc 0x300A#32 [0x9606#16]).setRegPsw 0xF#32)) (fun t => t.pc == 0x300C#32) = true ∧
      nextHas (step (atPc 0x300A#32 [0x9606#16])) (fun t => t.pc == 0x3010#32) = true := by decide

theorem test_B12_bv :
    nextHas (step ((atPc 0x300C#32 [0x8004#16]).setRegPsw 0xF#32)) (fun t => t.pc == 0x3010#32) = true := by decide

theorem test_B13_blt :
    nextHas (step ((atPc 0x2006#32 [0x8C04#16]).setRegPsw 2#32)) (fun t => t.pc == 0x200A#32) = true := by decide

theorem test_B14_B15_B16_ble :
    nextHas (step (at1000 [0x8E10#16])) (fun t => t.pc == 0x1002#32) = true ∧
      nextHas (step ((at1000 [0x8E10#16]).setRegPsw 1#32)) (fun t => t.pc == 0x1010#32) = true ∧
      nextHas (step ((at1000 [0x8E10#16]).setRegPsw 6#32)) (fun t => t.pc == 0x1002#32) = true := by decide

theorem test_B18_bgt :
    nextHas (step (at1000 [0x9E10#16])) (fun t => t.pc == 0x1010#32) = true ∧
      nextHas (step ((at1000 [0x9E10#16]).setRegPsw 2#32)) (fun t => t.pc == 0x1002#32) = true := by decide

theorem test_B20_bge :
    nextHas (step ((at1000 [0x9C10#16]).setRegPsw 6#32)) (fun t => t.pc == 0x1010#32) = true := by decide

/-- The comparison after SUB of -5 and 3 (S = 1, OV = 0, CY = 0, Z = 0): BN, BNC and BNV are taken, BC, BNH and BP are not (spec/95_test_vectors.md, end of
2.4). -/
theorem test_bn_bnc_bnv_taken :
    nextHas (step ((at1000 [0x8810#16]).setRegPsw 2#32)) (fun t => t.pc == 0x1010#32) = true ∧
      nextHas (step ((at1000 [0x9210#16]).setRegPsw 2#32)) (fun t => t.pc == 0x1010#32) = true ∧
      nextHas (step ((at1000 [0x9010#16]).setRegPsw 2#32)) (fun t => t.pc == 0x1010#32) = true := by decide

theorem test_bc_bnh_bp_not_taken :
    nextHas (step ((at1000 [0x8210#16]).setRegPsw 2#32)) (fun t => t.pc == 0x1002#32) = true ∧
      nextHas (step ((at1000 [0x8610#16]).setRegPsw 2#32)) (fun t => t.pc == 0x1002#32) = true ∧
      nextHas (step ((at1000 [0x9810#16]).setRegPsw 2#32)) (fun t => t.pc == 0x1002#32) = true := by decide

theorem test_Y1_Y7_ldsr :
    nextHas (step ((at1000 [0x7025#16]).setGpr 1#5 0xFFFFFFFF#32))
        (fun t => t.psw.pack == 0x000FF3FF#32 && t.pc == 0x1002#32) = true ∧
      nextHas (step ((at1000 [0x7025#16]).setGpr 1#5 0xFFF00C00#32)) (fun t => t.psw.pack == 0#32) = true := by decide

theorem test_Y9_ldsr_other_selector :
    faultsWith (step ((at1000 [0x7020#16]).setGpr 1#5 5#32)) (.unimplementedSystemRegister 0x1000#32 0#5) = true ∧
      (at1000 [0x7020#16]).afterStep.psw.pack = 0x8000#32 ∧
      (at1000 [0x7020#16]).afterStep.busLog = [.readHalfword 0x1000#32] := by decide

theorem test_Y11_cli :
    nextHas (step ((at1000 [0x5800#16]).setRegPsw 0x000FF3FF#32)) (fun t => t.psw.pack == 0x000FE3FF#32) = true := by decide

theorem test_Y14_sei :
    nextHas (step (at1000 [0x7BFF#16])) (fun t => t.psw.pack == 0x9000#32 && t.pc == 0x1002#32) = true := by decide

theorem test_L1_ldB :
    nextHas (step (loadState 0xC0E4#16 [0x80#8]))
      (fun t => t.gpr 7#5 == 0xFFFFFF80#32 && t.pc == 0x1004#32 &&
        t.busLog.take 3 == [.readHalfword 0x1000#32, .readHalfword 0x1002#32, .readByte 0x05000008#32]) = true := by decide

theorem test_L10_ldB_address_wraps :
    nextHas (step (withBytes ((at1000 [0xC0E4#16, 1#16]).setGpr 4#5 0xFFFFFFFF#32) 0#32 [0x5A#8]))
      (fun t => t.gpr 7#5 == 0x5A#32) = true := by decide

theorem test_L3_ldH : nextHas (step (loadState 0xC4E4#16 [0#8, 0x80#8])) (fun t => t.gpr 7#5 == 0xFFFF8000#32) = true := by decide

theorem test_L5_ldW :
    nextHas (step (loadState 0xCCE4#16 [1#8, 0#8, 0#8, 0x80#8])) (fun t => t.gpr 7#5 == 0x80000001#32) = true := by decide

theorem test_L12_ldW_over_its_base :
    nextHas (step (withBytes ((at1000 [0xCC84#16, 4#16]).setGpr 4#5 0x05000000#32) 0x05000004#32
        [0x0D#8, 0xF0#8, 0xFE#8, 0xCA#8]))
      (fun t => t.gpr 4#5 == 0xCAFEF00D#32) = true := by decide

theorem test_L6_inB : nextHas (step (loadState 0xE0E4#16 [0xFF#8])) (fun t => t.gpr 7#5 == 0xFFFFFFFF#32) = true := by decide

theorem test_L7_inH : nextHas (step (loadState 0xE4E4#16 [0#8, 0x80#8])) (fun t => t.gpr 7#5 == 0xFFFF8000#32) = true := by decide

theorem test_L8_inW :
    nextHas (step (loadState 0xECE4#16 [1#8, 0#8, 0#8, 0x80#8])) (fun t => t.gpr 7#5 == 0x80000001#32) = true := by decide

theorem test_T1_stB :
    nextHas (step (storeState 0xD0A4#16))
      (fun t => Memory.readWord t.mem 0x05000008#32 == 0x78#32 && t.pc == 0x1004#32 &&
        t.busLog[2]? == some (.writeByte 0x05000008#32 0x78#8)) = true := by decide

theorem test_T2_stH :
    nextHas (step (storeState 0xD4A4#16)) (fun t => Memory.readWord t.mem 0x05000008#32 == 0x5678#32) = true := by decide

theorem test_T3_stW :
    nextHas (step (storeState 0xDCA4#16)) (fun t => Memory.readWord t.mem 0x05000008#32 == 0x12345678#32) = true := by decide

/-- T7: zero over FF FF FF FF, and the cells go out of the list. -/
theorem test_T7_stW_r0 :
    nextHas (step (withBytes (storeState 0xDC04#16) 0x05000008#32 [0xFF#8, 0xFF#8, 0xFF#8, 0xFF#8]))
      (fun t => t.mem == (storeState 0xDC04#16).mem) = true := by decide

theorem test_T4_outB :
    nextHas (step (storeState 0xF0A4#16)) (fun t => Memory.readWord t.mem 0x05000008#32 == 0x78#32) = true := by decide

theorem test_T5_outH :
    nextHas (step (storeState 0xF4A4#16)) (fun t => Memory.readWord t.mem 0x05000008#32 == 0x5678#32) = true := by decide

theorem test_T6_outW :
    nextHas (step (storeState 0xFCA4#16)) (fun t => Memory.readWord t.mem 0x05000008#32 == 0x12345678#32) = true := by decide

/-- A misaligned store completes: the bus sees the unmodified address (R78). -/
theorem test_misaligned_stW_completes :
    nextHas (step ((storeState 0xDCA4#16).setGpr 4#5 0x05000001#32))
      (fun t => t.pc == 0x1004#32 && t.busLog[2]? == some (.writeWord 0x05000009#32 0x12345678#32)) = true := by decide

/-- The same step on the reference bus: R87 refuses the misaligned word at 05000009 and allows the aligned one at 05000008. -/
theorem test_RefBus_refuses_misaligned_stW :
    refusesWith (stepOnRefBus ((storeState 0xDCA4#16).setGpr 4#5 0x05000001#32))
        (.referenceBusRefuses (.writeWord 0x05000009#32 0x12345678#32)) = true ∧
      nextHas (stepOnRefBus (storeState 0xDCA4#16)) (fun t => Memory.readWord t.mem 0x05000008#32 == 0x12345678#32) = true := by
  decide

/-- A misaligned halfword read is refused, a byte read at the same address is not. -/
theorem test_RefBus_refuses_misaligned_ldH :
    refusesWith (stepOnRefBus ((loadState 0xC4E4#16 []).setGpr 4#5 0x05000001#32))
        (.referenceBusRefuses (.readHalfword 0x05000009#32)) = true ∧
      nextHas (stepOnRefBus ((loadState 0xC0E4#16 []).setGpr 4#5 0x05000001#32)) (fun t => t.pc == 0x1004#32) = true := by
  decide

/-! ### Faults, reset and the host -/

theorem test_X1_X2_unrecognized :
    faultsWith (step (at1000 [0x0400#16])) (.unrecognizedOpcode 0x1000#32 0x0400#16) = true ∧
      faultsWith (step (at1000 [0xFBFF#16])) (.unrecognizedOpcode 0x1000#32 0xFBFF#16) = true ∧
      (at1000 [0xFBFF#16]).afterStep.busLog = [.readHalfword 0x1000#32] := by decide

theorem test_X3_misalignedPc :
    faultsWith (step (atPc 0x1001#32 [])) (.misalignedPc 0x1001#32) = true ∧ (atPc 0x1001#32 []).afterStep.busLog = [] := by decide

theorem test_X4_no_step_after_a_fault :
    refusesWith (step (at1000 [0x0400#16]).afterStep) (.faultMarkSet (.unrecognizedOpcode 0x1000#32 0x0400#16)) = true := by
  decide

theorem test_X5_reset_after_a_fault :
    (hostCall .reset (at1000 [0x0400#16]).afterStep).1 = { State.reset with mem := (at1000 [0x0400#16]).mem } := by decide

theorem test_Y15_set_reg_psw :
    (hostCall .regPsw (hostCall (.setRegPsw 0xFFFFFFFF#32) State.reset).1).2 = some 0x000FF3FF#32 := by decide

theorem test_reset_values : State.reset.psw.pack = 0x8000#32 ∧ State.reset.pc = 0xFFFFFFF0#32 ∧ State.reset.gpr 31#5 = 0#32 := by
  decide

/-- P6, first step: the word is placed at the reset vector. -/
theorem test_P6_withFetchWord :
    nextHas (step (State.reset.withFetchWord 32 0x0700BC20)) (fun t => t.gpr 1#5 == 0x07000000#32 && t.pc == 0xFFFFFFF4#32) = true := by
  decide

/-- The same word is fetched first though an answer from outside is queued. -/
theorem test_withFetchWord_before_queued_answers :
    nextHas (step (State.withFetchWord { State.reset with busAnswers := [some 0x0400#32] } 32 0x0700BC20))
      (fun t => t.gpr 1#5 == 0x07000000#32 && t.busAnswers == [some 0x0400#32]) = true := by decide

/-! ### Witnesses: for every statement with hypotheses, states and operands that meet them all; clauses at the ends of their ranges -/

/-- One- and two-halfword words that are recognized. -/
theorem witness_EncodeOfDecodeKeepsUsedBits :
    classify 0x1BEB#16 = some .jmp ∧ classify 0x9BFF#16 = some .nop ∧ classify 0xFFFF#16 = some .outW := by decide

/-- The values of `opc6` on both sides of 0x28. -/
theorem witness_TwoHalfwordsFromTheTopBits : classify 0x9FFF#16 = some .bgt ∧ classify 0xA000#16 = some .movea := by decide

/-- A word that a row of the table matches. -/
theorem witness_ClassifyAgreesWithMatchAndMask :
    (Opcode.outW, 0xFC00#16, 0xFC00#16) ∈ opcodeTable ∧ 0xFFFF#16 &&& 0xFC00#16 = 0xFC00#16 := by decide

/-- The absent bits at the ends of their ranges, and two equal packed words. -/
theorem witness_AbsentStatusBitsReadZero :
    ∃ (p q : Psw) (i j k l : Nat), i = 10 ∧ j = 11 ∧ k = 20 ∧ 20 ≤ k ∧ l = 31 ∧ 20 ≤ l ∧ p.pack = q.pack :=
  ⟨Psw.reset, Psw.reset, 10, 11, 20, 31, rfl, rfl, rfl, by decide, rfl, by decide, rfl⟩

theorem witness_MovhiThenMoveaBuildAnyConstant :
    ∃ (k : Word) (n : RegIdx) (s t u : State), n ≠ 0#5 ∧
      exec (.movhi ((k - (k.extractLsb' 0 16).signExtend 32).extractLsb' 16 16) 0#5 n) s = .next t ∧
      exec (.movea (k.extractLsb' 0 16) n n) t = .next u :=
  ⟨0xFFFFFFFF#32, 31#5, State.reset, _, _, by decide, rfl, rfl⟩

theorem witness_OverflowFlagIsSignedOverflow :
    ∃ (a b : RegIdx) (s t : State), exec (.sub a b) s = .next t := ⟨2#5, 1#5, at1000 [], _, rfl⟩

theorem witness_BranchesCompareAfterSubtract :
    ∃ (a b : RegIdx) (s t : State), exec (.sub a b) s = .next t := ⟨31#5, 0#5, at1000 [], _, rfl⟩

/-- One instruction for each clause: a jump, the two lengths, a branch taken and one not taken. -/
theorem witness_NextAddressOfEveryInstruction :
    (∃ t, exec (.jmp 0#5) State.reset = .next t) ∧ (∃ t, exec (.movea 0#16 1#5 2#5) State.reset = .next t) ∧
      (∃ t, exec (.ldB 0#16 1#5 2#5) State.reset = .next t) ∧ (∃ t, exec (.outW 1#5 0#16 2#5) State.reset = .next t) ∧
      (∃ t, exec (.ldsr 1#5 5#5) State.reset = .next t) ∧
      (∃ t, exec (.br 0x1FF#9) State.reset = .next t) ∧ ∃ t, exec (.bz 0x100#9) State.reset = .next t :=
  ⟨⟨_, rfl⟩, ⟨_, rfl⟩, ⟨_, rfl⟩, ⟨_, rfl⟩, ⟨_, rfl⟩, ⟨_, rfl⟩, ⟨_, rfl⟩⟩

theorem witness_ProgramCounterStaysEven :
    ∃ (s s1 t : State) (i : Instr), s.fetch = .ready i s1 ∧ obligationsMet i s1 = true ∧ step s = .next t :=
  ⟨at1000 [0x8BFE#16], _, _, .br 0x1FE#9, rfl, by decide, rfl⟩

/-- Selectors at both ends, and beside 5. -/
theorem witness_LdsrFaultsOnOtherSelectors :
    (∃ (s s1 : State), (0#5 : BitVec 5) ≠ 5#5 ∧ s.faultMark = none ∧ s.fetch = .ready (.ldsr 1#5 0#5) s1) ∧
      (∃ (s s1 : State), (4#5 : BitVec 5) ≠ 5#5 ∧ s.faultMark = none ∧ s.fetch = .ready (.ldsr 1#5 4#5) s1) ∧
      ∃ (s s1 : State), (31#5 : BitVec 5) ≠ 5#5 ∧ s.faultMark = none ∧ s.fetch = .ready (.ldsr 1#5 31#5) s1 :=
  ⟨⟨at1000 [0x7020#16], _, by decide, rfl, rfl⟩, ⟨at1000 [0x7024#16], _, by decide, rfl, rfl⟩,
    ⟨at1000 [0x703F#16], _, by decide, rfl, rfl⟩⟩

/-- One instruction for each clause. -/
theorem witness_OnlyFourInstructionsWriteTheStatusWord :
    (∃ t, exec (.sub 1#5 2#5) State.reset = .next t) ∧ (∃ t, exec .cli State.reset = .next t) ∧
      (∃ t, exec .sei State.reset = .next t) ∧ (∃ t, exec (.ldsr 1#5 5#5) State.reset = .next t) ∧
      ∃ t, exec (.movReg 1#5 2#5) State.reset = .next t :=
  ⟨⟨_, rfl⟩, ⟨_, rfl⟩, ⟨_, rfl⟩, ⟨_, rfl⟩, ⟨_, rfl⟩⟩

/-- A register beside the destination, and any register where there is none. -/
theorem witness_OnlyTheDestinationRegisterChanges :
    (∃ t, exec (.ldW 0#16 4#5 7#5) State.reset = .next t ∧ destination (.ldW 0#16 4#5 7#5) ≠ some 31#5) ∧
      ∃ t, exec (.stW 5#5 0#16 4#5) State.reset = .next t ∧ destination (.stW 5#5 0#16 4#5) ≠ some 31#5 :=
  ⟨⟨_, rfl, by decide⟩, ⟨_, rfl, by decide⟩⟩

theorem witness_LoadsTakeAnyBusAnswer :
    ∃ (s : State) (v : Word) (rest : List (Option Word)), s.busAnswers = some v :: rest :=
  ⟨{ State.reset with busAnswers := [some 0xFFFFFFFF#32] }, _, _, rfl⟩

/-- The last even address and the last multiple of 4, where the sums stay inside the space. -/
theorem witness_ReferenceBusReadsLittleEndian :
    State.reset.busAnswers = [] ∧ (0xFFFFFFFE#32).toNat % 2 = 0 ∧ (0xFFFFFFFC#32).toNat % 4 = 0 := by decide

/-- Each alignment, at the ends of the address space. -/
theorem witness_StoresTouchOnlyTheirSpan :
    (State.reset.effAddr 0#5 0xFFFE#16).toNat % 2 = 0 ∧ (State.reset.effAddr 0#5 0xFFFC#16).toNat % 4 = 0 ∧
      (State.reset.effAddr 0#5 0xFFFF#16).toNat % 2 ≠ 0 ∧ (State.reset.effAddr 0#5 0xFFFF#16).toNat % 4 ≠ 0 ∧
      (State.reset.effAddr 0#5 2#16).toNat % 4 ≠ 0 := by decide

theorem witness_AlignedStoresLeaveTheirBytes :
    Memory.wf (storeState 0xDCA4#16).mem = true ∧ ((storeState 0xDCA4#16).effAddr 4#5 8#16).toNat % 2 = 0 ∧
      ((storeState 0xDCA4#16).effAddr 4#5 8#16).toNat % 4 = 0 := by decide

theorem witness_OnlyStoresWriteMemory : ∃ t, exec (.ldW 0#16 4#5 7#5) State.reset = .next t := ⟨_, rfl⟩

/-- The three widths at one aligned address. -/
theorem witness_StoreThenLoadGivesTheValueBack :
    ∃ s : State, (7#5 : RegIdx) ≠ 0#5 ∧ Memory.wf s.mem = true ∧ s.busAnswers = [] ∧
      s.effAddr 4#5 8#16 = s.effAddr 4#5 8#16 ∧ (s.effAddr 4#5 8#16).toNat % 4 = 0 ∧ (s.effAddr 4#5 8#16).toNat % 2 = 0 ∧
      (∃ t u, exec (.stW 5#5 8#16 4#5) s = .next t ∧ exec (.ldW 8#16 4#5 7#5) t = .next u) ∧
      (∃ t u, exec (.stH 5#5 8#16 4#5) s = .next t ∧ exec (.ldH 8#16 4#5 7#5) t = .next u) ∧
      ∃ t u, exec (.stB 5#5 8#16 4#5) s = .next t ∧ exec (.ldB 8#16 4#5 7#5) t = .next u :=
  ⟨storeState 0xDCA4#16, by decide, by decide, rfl, rfl, by decide, by decide, ⟨_, _, rfl, rfl⟩, ⟨_, _, rfl, rfl⟩,
    ⟨_, _, rfl, rfl⟩⟩

/-- ST.H of the word of MOV r1, r12 to the next instruction's place. -/
def selfWriting : State := ((at1000 [0xD4A4#16, 4#16]).setGpr 4#5 0x1000#32).setGpr 5#5 0x0181#32

theorem witness_StoredInstructionIsFetched :
    Memory.wf selfWriting.mem = true ∧ selfWriting.busAnswers = [] ∧ selfWriting.faultMark = none ∧
      selfWriting.effAddr 4#5 4#16 = selfWriting.pc + 4#32 ∧ selfWriting.pc.toNat % 2 = 0 ∧
      classify ((selfWriting.gpr 5#5).extractLsb' 0 16) = some .movReg ∧ Opcode.movReg.twoHalfwords = false ∧
      ∃ t, exec (.stH 5#5 4#16 4#5) selfWriting = .next t :=
  ⟨by decide, rfl, rfl, by decide, by decide, by decide, rfl, ⟨_, rfl⟩⟩

theorem witness_StepRunsTheInstructionInMemory :
    ∃ (s : State) (i : Instr) (rest : List Byte), s.faultMark = none ∧ s.pc.toNat % 2 = 0 ∧ s.busAnswers = [] ∧
      decodeBytes [Memory.readByte s.mem s.pc, Memory.readByte s.mem (s.pc + 1#32), Memory.readByte s.mem (s.pc + 2#32),
        Memory.readByte s.mem (s.pc + 3#32)] = .instr i rest :=
  ⟨at1000 [0x0181#16], .movReg 1#5 12#5, [0#8, 0#8], rfl, by decide, rfl, by decide⟩

/-- A two-halfword instruction that the bus answers, nothing of it in memory. -/
theorem witness_StepRunsTheInstructionAnyBusAnswers :
    ∃ (s : State) (i : Instr) (v1 v2 : Word) (answers : List (Option Word)) (rest : List Halfword),
      s.faultMark = none ∧ s.pc.toNat % 2 = 0 ∧ s.busAnswers = some v1 :: some v2 :: answers ∧
      decode [v1.extractLsb' 0 16, v2.extractLsb' 0 16] = .instr i rest :=
  ⟨{ State.reset with busAnswers := [some 0xA0A5#32, some 0x4321#32] }, .movea 0x4321#16 5#5 5#5, _, _, _, [], rfl,
    by decide, rfl, by decide⟩

theorem witness_PlacedWordIsTheNextInstruction :
    State.reset.faultMark = none ∧ State.reset.pc.toNat % 2 = 0 ∧ Memory.wf State.reset.mem = true ∧
      State.reset.busAnswers = [] ∧ decodeTableWord 32 0x0010DCA4 = some (.stW 5#5 0x10#16 4#5) := by decide

theorem witness_OddProgramCounterFaults :
    (atPc 0xFFFFFFFF#32 []).faultMark = none ∧ (atPc 0xFFFFFFFF#32 []).pc.toNat % 2 = 1 := by decide

/-- The first and the last unassigned value. -/
theorem witness_UnrecognizedHalfwordFaults :
    (at1000 [0x0400#16]).faultMark = none ∧ (at1000 [0x0400#16]).pc.toNat % 2 = 0 ∧
      (((at1000 [0x0400#16]).fetchAnswer 0x1000#32).extractLsb' 10 6).toNat ∈ unassignedOpc6 ∧
      (((at1000 [0xFBFF#16]).fetchAnswer 0x1000#32).extractLsb' 10 6).toNat ∈ unassignedOpc6 := by decide

/-- A state for each of the three faults, one for the refusal, one for a step that completes. -/
theorem witness_TheCoreStopsInExactlyThreeWays :
    step (atPc 0x1001#32 []) = .fault (.misalignedPc 0x1001#32) ∧
      step (at1000 [0x0400#16]) = .fault (.unrecognizedOpcode 0x1000#32 0x0400#16) ∧
      step (at1000 [0x703F#16]) = .fault (.unimplementedSystemRegister 0x1000#32 31#5) ∧
      step { State.reset with faultMark := some (.misalignedPc 1#32) } = .refused (.faultMarkSet (.misalignedPc 1#32)) ∧
      ∃ t, step (at1000 [0x7025#16]) = .next t :=
  ⟨rfl, rfl, rfl, rfl, ⟨_, rfl⟩⟩

theorem witness_FaultKeepsTheCoreAndStopsIt :
    (∃ (s : State) (f : Fault), step s = .fault f) ∧ ∃ (s : State) (f : Fault), s.faultMark = some f :=
  ⟨⟨at1000 [0x703F#16], _, rfl⟩, ⟨(at1000 [0x703F#16]).afterStep, _, rfl⟩⟩

theorem witness_HostResetRestoresTheCore :
    ∃ (s : State) (op : HostOp) (f : Fault), s.faultMark = some f ∧ op ≠ .reset :=
  ⟨(at1000 [0x703F#16]).afterStep, .setRegPsw 0#32, _, rfl, by decide⟩

/-- A fetch that is ready, of each length (the premise inside `Encodes`). -/
theorem witness_Encodes :
    (∃ s1, (at1000 [0x0181#16]).fetch = .ready (.movReg 1#5 12#5) s1) ∧
      ∃ s1, (at1000 [0xA0C5#16, 1#16]).fetch = .ready (.movea 1#16 5#5 6#5) s1 := ⟨⟨_, rfl⟩, ⟨_, rfl⟩⟩

theorem witness_HostOperationsReadAndWritePsw : ∃ s t, step s = .next t := ⟨at1000 [0x7025#16], _, rfl⟩

theorem witness_BusOperationsOfAStepInOrder : ∃ s t, step s = .next t := ⟨loadState 0xC0E4#16 [0x80#8], _, rfl⟩

theorem witness_EveryStepKeepsTheInvariant : ∃ s t, s.Inv ∧ step s = .next t :=
  ⟨storeState 0xDCA4#16, _, ⟨by decide, by decide⟩, rfl⟩

theorem witness_EveryHostOperationKeepsTheInvariant : ∃ s : State, s.Inv ∧ s.faultMark ≠ none :=
  ⟨(at1000 [0x0400#16]).afterStep, ⟨by decide, by decide⟩, by decide⟩

/-- Two states that differ in NP, whose first steps complete. -/
theorem witness_ControlBitsNeverAffectARun :
    ∃ s s' : State, AgreeButControlBits s s' ∧ s ≠ s' ∧ (∃ t, step s = .next t) ∧ ∃ t, step s' = .next t :=
  ⟨State.reset, { State.reset with psw := { Psw.reset with np := false } }, ⟨rfl, rfl, rfl, rfl, rfl⟩, by decide,
    ⟨_, rfl⟩, ⟨_, rfl⟩⟩

/-- Each clause: aligned and misaligned accesses of each kind, an instruction with none, a fault, a refusal, and a step that goes on. -/
theorem witness_ReferenceBusRefusesMisalignedAccesses :
    (∃ s t i s1, s.busAnswers = [] ∧ step s = .next t ∧ s.fetch = .ready i s1 ∧
      dataAccess i s = [.writeWord 0x05000009#32 0x12345678#32]) ∧
    (∃ s t i s1, s.busAnswers = [] ∧ step s = .next t ∧ s.fetch = .ready i s1 ∧
      dataAccess i s = [.writeHalfword 0x05000008#32 0x5678#16]) ∧
    (∃ s t i s1, s.busAnswers = [] ∧ step s = .next t ∧ s.fetch = .ready i s1 ∧ dataAccess i s = [.readWord 0x05000008#32]) ∧
    (∃ s t i s1, s.busAnswers = [] ∧ step s = .next t ∧ s.fetch = .ready i s1 ∧
      dataAccess i s = [.readHalfword 0x05000009#32]) ∧
    (∃ s t i s1, s.busAnswers = [] ∧ step s = .next t ∧ s.fetch = .ready i s1 ∧ dataAccess i s = []) ∧
    (∃ s f, s.busAnswers = [] ∧ step s = .fault f) ∧ (∃ s r, s.busAnswers = [] ∧ step s = .refused r) ∧
    ∃ s t, s.busAnswers = [] ∧ stepOnRefBus s = .next t :=
  ⟨⟨(storeState 0xDCA4#16).setGpr 4#5 0x05000001#32, _, _, _, rfl, rfl, rfl, by decide⟩,
    ⟨storeState 0xD4A4#16, _, _, _, rfl, rfl, rfl, by decide⟩, ⟨loadState 0xCCE4#16 [], _, _, _, rfl, rfl, rfl, by decide⟩,
    ⟨(loadState 0xC4E4#16 []).setGpr 4#5 0x05000001#32, _, _, _, rfl, rfl, rfl, by decide⟩,
    ⟨at1000 [0x0181#16], _, _, _, rfl, rfl, rfl, by decide⟩, ⟨at1000 [0x0400#16], _, rfl, rfl⟩,
    ⟨(at1000 [0x0400#16]).afterStep, _, rfl, rfl⟩, ⟨storeState 0xDCA4#16, _, rfl, rfl⟩⟩

/-- The disputed state and an undisputed one: both sides of the case distinction of `OutcomeTableOfTheConditions`. -/
theorem witness_OutcomeTableOfTheConditions :
    (Psw.unpack 3#32).s ≠ (Psw.unpack 3#32).ov ∧ (Psw.unpack 3#32).z = true ∧ (Psw.unpack 7#32).s = (Psw.unpack 7#32).ov := by
  decide

end Sys2Proof.Tests
end

section
/-! PROOFS. The packed status word (spec/10_state.md R41 to R44): its bits, its value as a number, and `pack` and `unpack` as
inverses of each other on the positions that have storage. -/

namespace Sys2Proof.Machine

/-! ### The bits of the packed word -/

theorem getLsbD_flagAt (b : Bool) {i : Nat} (hi : i < 32) (k : Nat) :
    (flagAt b i).getLsbD k = (decide (k = i) && b) := by
  by_cases hk : k = i
  · subst hk
    simp [flagAt, hi]
  · by_cases hlt : k < i
    · simp [flagAt, hk, hlt]
    · have hpos : k - i ≠ 0 := by omega
      simp [flagAt, hk, hpos]

/-- Each bit of the packed word is the field at its place, and 0 where there is no field (R41, R42). -/
theorem getLsbD_pack (p : Psw) (k : Nat) :
    p.pack.getLsbD k =
      (decide (k = 0) && p.z || decide (k = 1) && p.s || decide (k = 2) && p.ov || decide (k = 3) && p.cy ||
        decide (k = 4) && p.fpr || decide (k = 5) && p.fud || decide (k = 6) && p.fov || decide (k = 7) && p.fzd ||
        decide (k = 8) && p.fiv || decide (k = 9) && p.fro || decide (k = 12) && p.id || decide (k = 13) && p.ae ||
        decide (k = 14) && p.ep || decide (k = 15) && p.np || decide (16 ≤ k) && p.il.getLsbD (k - 16)) := by
  have hil : (p.il.setWidth 32 <<< 16).getLsbD k = (decide (16 ≤ k) && p.il.getLsbD (k - 16)) := by
    by_cases hk : k < 32
    · by_cases hlt : k < 16
      · simp [hk, hlt]
      · simp [hk, hlt, show 16 ≤ k by omega]
    · simp [hk, BitVec.getLsbD_of_ge p.il (k - 16) (by omega)]
  simp only [Psw.pack, BitVec.getLsbD_or, hil, getLsbD_flagAt, Nat.reduceLT]

/-- Unpacking loses no value of any field (R43). -/
@[simp] theorem unpack_pack (p : Psw) : Psw.unpack p.pack = p := by
  have hil : p.pack.extractLsb' 16 4 = p.il := by
    apply BitVec.eq_of_getLsbD_eq
    intro k hk
    simp [getLsbD_pack, hk]
    omega
  simp [Psw.unpack, -BitVec.getLsbD_eq_getElem, getLsbD_pack, hil]

/-- Packing keeps the bits that have storage and clears the others (R43). -/
@[simp] theorem pack_unpack (v : Word) : (Psw.unpack v).pack = v &&& Config.pswWriteMask := by
  apply BitVec.eq_of_getLsbD_eq
  intro k hk
  rw [getLsbD_pack, BitVec.getLsbD_and]
  simp only [Psw.unpack, Config.pswWriteMask, BitVec.getLsbD_extractLsb']
  interval_cases k <;> simp

/-! ### The packed word as a number -/

/-- The word has this value, and every bit from `n` up is 0. -/
def PackedBelow (x : Word) (value n : Nat) : Prop := x.toNat = value ∧ value < 2 ^ n

/-- Adding a field above all bits in use adds the field's value at its place. -/
theorem PackedBelow.or_field {x : Word} {value n w : Nat} (h : PackedBelow x value n) (f : BitVec w) (i : Nat)
    (hni : n ≤ i := by decide) (hi : i + w ≤ 32 := by decide) :
    PackedBelow (x ||| f.setWidth 32 <<< i) (value + 2 ^ i * f.toNat) (i + w) := by
  obtain ⟨hx, hlt⟩ := h
  have hlti : value < 2 ^ i := hlt.trans_le (Nat.pow_le_pow_right (by decide) hni)
  have hsum : value + 2 ^ i * f.toNat < 2 ^ (i + w) := by
    rw [Nat.pow_add]
    nlinarith [f.isLt]
  have h32 : 2 ^ (i + w) ≤ 2 ^ 32 := Nat.pow_le_pow_right (by decide) hi
  have hf : (f.setWidth 32 <<< i).toNat = 2 ^ i * f.toNat := by
    have hfw : f.toNat < 2 ^ 32 := f.isLt.trans_le (Nat.pow_le_pow_right (by decide) (by omega))
    rw [BitVec.toNat_shiftLeft, BitVec.toNat_setWidth, Nat.mod_eq_of_lt hfw, Nat.shiftLeft_eq, Nat.mul_comm,
      Nat.mod_eq_of_lt (by omega)]
  refine ⟨?_, hsum⟩
  rw [BitVec.toNat_or, hx, hf, Nat.add_comm, Nat.two_pow_add_eq_or_of_lt hlti, Nat.or_comm]

theorem PackedBelow.or_flagAt {x : Word} {value n : Nat} (h : PackedBelow x value n) (b : Bool) (i : Nat)
    (hni : n ≤ i := by decide) (hi : i < 32 := by decide) :
    PackedBelow (x ||| flagAt b i) (value + 2 ^ i * b.toNat) (i + 1) := by
  simpa [flagAt] using h.or_field (BitVec.ofBool b) i hni hi

theorem packedBelow_flagAt_zero (b : Bool) : PackedBelow (flagAt b 0) b.toNat 1 := by
  cases b <;> exact ⟨by decide, by decide⟩

/-- The fields are added from bit 0 up, as `pack` lists them (R42). -/
theorem packedBelow_pack (p : Psw) : PackedBelow p.pack
    (p.z.toNat + 2 ^ 1 * p.s.toNat + 2 ^ 2 * p.ov.toNat + 2 ^ 3 * p.cy.toNat + 2 ^ 4 * p.fpr.toNat + 2 ^ 5 * p.fud.toNat +
      2 ^ 6 * p.fov.toNat + 2 ^ 7 * p.fzd.toNat + 2 ^ 8 * p.fiv.toNat + 2 ^ 9 * p.fro.toNat + 2 ^ 12 * p.id.toNat +
      2 ^ 13 * p.ae.toNat + 2 ^ 14 * p.ep.toNat + 2 ^ 15 * p.np.toNat + 2 ^ 16 * p.il.toNat) 20 := by
  have hconditions := (((packedBelow_flagAt_zero p.z).or_flagAt p.s 1).or_flagAt p.ov 2).or_flagAt p.cy 3
  have hfloat := (((((hconditions.or_flagAt p.fpr 4).or_flagAt p.fud 5).or_flagAt p.fov 6).or_flagAt p.fzd 7).or_flagAt
    p.fiv 8).or_flagAt p.fro 9
  have hcontrol := (((hfloat.or_flagAt p.id 12).or_flagAt p.ae 13).or_flagAt p.ep 14).or_flagAt p.np 15
  exact hcontrol.or_field p.il 16

/-- Settles O9: each field is its bit by definition, and `pack` and `unpack` undo each other on the stored bits. -/
theorem statusWordUnpacks : Obligations.StatusWordUnpacks := by
  refine ⟨fun v => ⟨rfl, rfl, rfl, rfl, rfl, rfl, rfl, rfl, rfl, rfl, rfl, rfl, rfl, rfl, ?_, pack_unpack v⟩, unpack_pack⟩
  rw [← Nat.shiftRight_eq_div_pow]
  exact BitVec.extractLsb'_toNat 16 4 v

/-- Settles O10: the fields' places do not overlap, so the or of them is their sum. -/
theorem statusWordPacks : Obligations.StatusWordPacks := fun p => (packedBelow_pack p).1

/-- Settles O11: no field stands at those places, and `unpack` gives the fields back. -/
theorem absentStatusBitsReadZero : Obligations.AbsentStatusBitsReadZero := by
  refine ⟨fun p k hk => ?_, fun p q h => ?_⟩
  · rw [getLsbD_pack]
    obtain rfl | rfl | hk := hk
    · simp
    · simp
    · have hil : p.il.getLsbD (k - 16) = false := BitVec.getLsbD_of_ge _ _ (by omega)
      simp [hil]
      omega
  · rw [← unpack_pack p, h, unpack_pack]

/-- Settles O12: the sign of a word is its bit 31. -/
theorem setZeroSignWritesZAndS : Obligations.SetZeroSignWritesZAndS := by
  intro p v
  have hz : (v == 0#32) = decide (v.toNat = 0) := by
    rw [beq_eq_decide, decide_eq_decide]
    exact BitVec.toNat_eq
  rw [Psw.setZeroSign, hz, bit31_toInt]

end Sys2Proof.Machine
end

section
/-! PROOFS. The register file, reset and the host's operations (spec/10_state.md R24, R25, R48; spec/70_reset_and_hazards.md R260,
R266). -/

namespace Sys2Proof.Machine

/-- A write to the register file touches no other field. -/
theorem setGpr_eq_with_regs (s : State) (i : RegIdx) (v : Word) : s.setGpr i v = { s with regs := (s.setGpr i v).regs } := by
  unfold State.setGpr
  split <;> rfl

/-- Settles O8, by whether the register read is the one written and whether that one is index 0. -/
theorem registerReadAfterWrite : Obligations.RegisterReadAfterWrite := by
  intro s i j v
  refine ⟨gpr_zero s, ?_, setGpr_eq_with_regs s i v, setGpr_zero s v⟩
  by_cases hj : j = i
  · subst hj
    by_cases h0 : j = 0#5
    · simp [h0, setGpr_zero]
    · simp [h0, setGpr_same]
  · simp [hj, setGpr_other]

theorem reset_gpr (i : RegIdx) : State.reset.gpr i = 0#32 := by
  unfold State.gpr State.reset
  split
  · rfl
  · exact Vector.getElem_replicate _

/-- Settles O13: the registers are replicated zeros, and the status word has NP alone. -/
theorem resetLeavesTheStatedValues : Obligations.ResetLeavesTheStatedValues :=
  ⟨reset_gpr, rfl, by decide, rfl⟩

/-- Settles O60: reset writes no field of the bus. -/
theorem hostResetLeavesTheBusAlone : Obligations.HostResetLeavesTheBusAlone :=
  fun _ => ⟨rfl, rfl, rfl, rfl⟩

/-! ### What a call of the host's step leaves -/

theorem afterStep_of_step_next {s t : State} (h : step s = .next t) : s.afterStep = t := by
  obtain ⟨hm, i, s1, hf, he⟩ := step_next h
  simp [State.afterStep, hm, hf, he]

theorem afterStep_of_fetch_stop {s s1 : State} {f : Fault} (hm : s.faultMark = none) (hf : s.fetch = .stop f s1) :
    s.afterStep = s1.enterFault f := by
  simp [State.afterStep, hm, hf]

/-- Settles O53: the reads are the fields, `set_reg_psw` goes through `pack_unpack`, and a completed step leaves its next state. -/
theorem hostOperationsReadAndWritePsw : Obligations.HostOperationsReadAndWritePsw := by
  intro s i v
  refine ⟨rfl, rfl, rfl, rfl, congrArg some (pack_unpack v), fun t h => ?_⟩
  rw [hostCall, afterStep_of_step_next h]

end Sys2Proof.Machine
end

section
/-! PROOFS. Fetch and decode inside a step (spec/10_state.md R29, R31): the fetch reads what the halfwords at `pc` decode to, and the
step runs it. -/

namespace Sys2Proof.Machine

/-! ### Parity of an address -/

theorem bit0_eq_decide {n : Nat} (x : BitVec n) : x.getLsbD 0 = decide (x.toNat % 2 = 1) := by
  rw [← BitVec.testBit_toNat, Nat.testBit_zero]

theorem bit0_of_even {x : Word} (h : x.toNat % 2 = 0) : x.getLsbD 0 = false := by
  rw [bit0_eq_decide, decide_eq_false_iff_not]
  omega

theorem aligned_half_add_two {a : Word} (h : a.toNat % 2 = 0) : Width.aligned .half (a + 2#32) = true := by
  rw [aligned_half, BitVec.toNat_add]
  simp
  omega

/-! ### The step, by what its fetch came to -/

theorem step_of_fetch_ready {s s1 : State} {i : Instr} (hm : s.faultMark = none) (hf : s.fetch = .ready i s1) :
    step s = exec i s1 := by
  simp [step, hm, hf]

theorem step_of_fetch_stop {s s1 : State} {f : Fault} (hm : s.faultMark = none) (hf : s.fetch = .stop f s1) :
    step s = .fault f := by
  simp [step, hm, hf]

theorem fetch_odd {s : State} (h : s.pc.getLsbD 0 = true) : s.fetch = .stop (.misalignedPc s.pc) s.beginStep := by
  rw [State.fetch, if_pos h]

/-- Settles O48: the fetch stops before its first bus read. -/
theorem oddProgramCounterFaults : Obligations.OddProgramCounterFaults := by
  intro s hm hodd
  have hf : s.fetch = .stop (.misalignedPc s.pc) s.beginStep := fetch_odd (by simp [bit0_eq_decide, hodd])
  exact ⟨step_of_fetch_stop hm hf, afterStep_of_fetch_stop hm hf⟩

/-! ### Decoding two halfwords -/

theorem decode_of_classify {hw1 : Halfword} {op : Opcode} (hc : classify hw1 = some op) (hw2 : Halfword) :
    decode [hw1, hw2] = .instr (op.extract hw1 (if op.twoHalfwords then hw2 else 0#16))
      (if op.twoHalfwords then [] else [hw2]) := by
  cases h2 : op.twoHalfwords <;> simp [decode, hc, h2]

theorem decodeBytes_of_classify {b0 b1 : Byte} {op : Opcode} (hc : classify (joinBytes b0 b1) = some op) (b2 b3 : Byte) :
    decodeBytes [b0, b1, b2, b3] =
      .instr (op.extract (joinBytes b0 b1) (if op.twoHalfwords then joinBytes b2 b3 else 0#16))
        (if op.twoHalfwords then [] else [b2, b3]) := by
  cases h2 : op.twoHalfwords <;> simp [decodeBytes, hc, h2]

/-- What a stream of two halfwords decodes to is extracted from them; a one-halfword instruction does not look at the second. -/
theorem decode_two {hw1 hw2 : Halfword} {i : Instr} {rest : List Halfword} (h : decode [hw1, hw2] = .instr i rest) :
    classify hw1 = some i.opcode ∧ i = i.opcode.extract hw1 (if i.opcode.twoHalfwords then hw2 else 0#16) := by
  cases hc : classify hw1 with
  | none => simp [decode, hc] at h
  | some op =>
    obtain ⟨rfl, -⟩ := (Decoded.instr.injEq ..).mp ((decode_of_classify hc hw2).symm.trans h)
    simp [opcode_extract]

/-- Four bytes decode as the two halfwords they join to. -/
theorem decode_of_decodeBytes_four {b0 b1 b2 b3 : Byte} {i : Instr} {rest : List Byte}
    (h : decodeBytes [b0, b1, b2, b3] = .instr i rest) :
    ∃ rest', decode [joinBytes b0 b1, joinBytes b2 b3] = .instr i rest' := by
  cases hc : classify (joinBytes b0 b1) with
  | none => simp [decodeBytes, hc] at h
  | some op =>
    obtain ⟨rfl, -⟩ := (Decoded.instr.injEq ..).mp ((decodeBytes_of_classify hc b2 b3).symm.trans h)
    exact ⟨_, decode_of_classify hc _⟩

/-! ### The two fetches of a step -/

/-- The bus's answer to the fetch of a step's second halfword. -/
def State.secondFetchAnswer (s : State) : Halfword := (s.beginStep.afterRead .half s.pc).fetchAnswer (s.pc + 2#32)

theorem afterRead_of_aligned {s : State} {w : Width} {a : Word} (h : w.aligned a = true) :
    s.afterRead w a = { s with busLog := s.busLog ++ [w.readEvent a], busAnswers := s.busAnswers.tail } := by
  simp [State.afterRead, h]

/-- A step whose fetched halfwords decode is `exec` of the instruction, at the state that has issued the fetches and used their
answers (R31). -/
theorem step_of_decode {s : State} {i : Instr} {rest : List Halfword} (hm : s.faultMark = none) (hp : s.pc.toNat % 2 = 0)
    (h : decode [s.fetchAnswer s.pc, s.secondFetchAnswer] = .instr i rest) :
    step s = exec i
      { s with
        busLog := fetchEvents i s.pc
        busAnswers := if i.opcode.twoHalfwords then s.busAnswers.tail.tail else s.busAnswers.tail } := by
  obtain ⟨hc, hi⟩ := decode_two h
  have h1 := afterRead_of_aligned (s := s.beginStep) ((aligned_half s.pc).2 hp)
  by_cases h2 : i.opcode.twoHalfwords = true
  · rw [if_pos h2] at hi
    have hf : s.fetch = .ready (i.opcode.extract (s.fetchAnswer s.pc) s.secondFetchAnswer) _ :=
      fetch_twoHalfwords (bit0_of_even hp) hc h2
    rw [step_of_fetch_ready hm hf, ← hi, afterRead_of_aligned (aligned_half_add_two hp), h1]
    simp only [fetchEvents, if_pos h2]
    rfl
  · rw [if_neg h2] at hi
    have hf := fetch_oneHalfword (bit0_of_even hp) hc (by simpa using h2)
    rw [step_of_fetch_ready hm hf, ← hi, h1]
    simp only [fetchEvents, if_neg h2]
    rfl

theorem fetchAnswer_queued {s : State} {v : Word} {answers : List (Option Word)} (a : Word)
    (h : s.busAnswers = some v :: answers) : s.fetchAnswer a = v.extractLsb' 0 16 := by
  rw [State.fetchAnswer, readAnswer_queued .half a h, Width.trunc, ← BitVec.setWidth_eq_extractLsb' (by decide)]
  simp

theorem fetchAnswer_memory {s : State} {a : Word} (h : s.busAnswers = []) (ha : Width.aligned .half a = true) :
    s.fetchAnswer a = joinBytes (Memory.readByte s.mem a) (Memory.readByte s.mem (a + 1#32)) := by
  rw [State.fetchAnswer, readAnswer_memory .half a h, memoryAnswer_aligned ha, Memory.readWidth]
  simp [Memory.readHalfword]

/-- Settles O46: each fetch takes its answer from the queue. -/
theorem stepRunsTheInstructionAnyBusAnswers : Obligations.StepRunsTheInstructionAnyBusAnswers := by
  intro s i v1 v2 answers rest hm hp hq hd
  have h1 : s.fetchAnswer s.pc = v1.extractLsb' 0 16 := fetchAnswer_queued _ hq
  have h2 : s.secondFetchAnswer = v2.extractLsb' 0 16 := fetchAnswer_queued (answers := answers) _ (by simp [hq])
  rw [← h1, ← h2] at hd
  rw [step_of_decode hm hp hd, hq]
  rfl

/-- Settles O45: with no queued answer each fetch reads the bytes at its address. -/
theorem stepRunsTheInstructionInMemory : Obligations.StepRunsTheInstructionInMemory := by
  intro s i rest hm hp hq hd
  obtain ⟨rest', hd⟩ := decode_of_decodeBytes_four hd
  have h1 := fetchAnswer_memory hq ((aligned_half s.pc).2 hp)
  have h2 : s.secondFetchAnswer =
      joinBytes (Memory.readByte s.mem (s.pc + 2#32)) (Memory.readByte s.mem (s.pc + 3#32)) := by
    rw [State.secondFetchAnswer, fetchAnswer_memory (by simp [hq]) (aligned_half_add_two hp), BitVec.add_assoc]
    rfl
  rw [← h1, ← h2] at hd
  rw [step_of_decode hm hp hd, hq]
  simp

end Sys2Proof.Machine
end

section
/-! PROOFS. What every instruction that completes does to `pc`, the status word and the registers (spec/10_state.md R26, R29, R32,
R45). -/

namespace Sys2Proof.Machine

/-! ### The ends of an instruction, inverted -/

/-- All that `advance` can do. -/
theorem advance_next {s t : State} {op : Opcode} (h : s.advance op = .next t) : t = s.commit op false (s.defaultNext op) :=
  ((Host.Outcome.next.injEq ..).mp h).symm

/-- All that `branch` can do. -/
theorem branch_next {s t : State} {op : Opcode} {taken : Bool} {d : BitVec 9} (h : s.branch op taken d = .next t) :
    t = s.commit op taken (if taken then s.branchTarget d else s.defaultNext op) :=
  ((Host.Outcome.next.injEq ..).mp h).symm

/-- All that LDSR can do where it completes (R190). -/
theorem ldsr_next {s t : State} {r : RegIdx} {k : BitVec 5} (h : execLdsr r k s = .next t) :
    t = State.commit { s with psw := Psw.unpack (s.gpr r) } .ldsr false (s.pc + 2#32) := by
  unfold execLdsr at h
  split at h
  · exact advance_next h
  · cases h

/-! ### The condition-code forms -/

theorem less_eq_bne (p : Psw) : p.less = (p.s != p.ov) := rfl

theorem condBge_eq (p : Psw) : p.condBge = (p.s == p.ov) := by
  rw [Psw.condBge, less_eq_bne, bne, Bool.not_not]

theorem lessOrEqualWith_eq (disputed : Bool) (p : Psw) :
    p.lessOrEqualWith disputed = if (p.s != p.ov) && p.z then disputed else (p.s != p.ov) || p.z := by
  rw [Psw.lessOrEqualWith, less_eq_bne]
  cases p.s != p.ov <;> cases p.z <;> rfl

/-- The displacement of a condition-code form; NOP's is ignored (R174). -/
def conditionDisp9 : Instr → Option (BitVec 9)
  | .bv d | .bc d | .bz d | .bnh d | .bn d | .br d | .blt d | .ble d => some d
  | .bnv d | .bnc d | .bnz d | .bh d | .bp d | .bge d | .bgt d => some d
  | .nop => some 0#9
  | _ => none

/-- A condition-code form is the common rule of R160 with its own predicate. -/
theorem exec_conditionForm {i : Instr} {d : BitVec 9} (h : conditionDisp9 i = some d) (s : State) :
    exec i s = s.branch i.opcode (takenOf i s.psw) d := by
  cases i <;> cases h
  case ble => exact congrArg (s.branch .ble · d) (lessOrEqualWith_eq _ _)
  case bgt => exact congrArg (fun b => s.branch .bgt (!b) d) (lessOrEqualWith_eq _ _)
  case bge => exact congrArg (s.branch .bge · d) (condBge_eq _)
  all_goals rfl

/-- What R268 (a) asks of a condition-code form: an even displacement where it is taken. -/
theorem obligationsMet_conditionForm {i : Instr} {d : BitVec 9} (h : conditionDisp9 i = some d) (s : State) :
    obligationsMet i s = (!takenOf i s.psw || !d.getLsbD 0) := by
  cases i <;> cases h
  case ble => exact congrArg (!· || !d.getLsbD 0) (lessOrEqualWith_eq _ _)
  case bgt => exact congrArg (!!· || !d.getLsbD 0) (lessOrEqualWith_eq _ _)
  case bge => exact congrArg (!· || !d.getLsbD 0) (condBge_eq _)
  all_goals rfl

/-- The next address of a condition-code form (R160). -/
theorem conditionForm_next_pc {i : Instr} {d : BitVec 9} {s t : State} (hd : conditionDisp9 i = some d)
    (h : exec i s = .next t) :
    t.pc = if takenOf i s.psw then displaced s.pc d else s.pc + 2#32 := by
  have hop : i.opcode.twoHalfwords = false := by cases i <;> cases hd <;> rfl
  rw [exec_conditionForm hd] at h
  rw [branch_next h, commit_pc, State.branchTarget, add_sext, State.defaultNext, hop]
  rfl

/-- Settles O27, by the shared operation that each instruction ends in. -/
theorem nextAddressOfEveryInstruction : Obligations.NextAddressOfEveryInstruction := by
  intro i s t h
  cases i with
  | jmp =>
    cases h
    rfl
  | movReg a b | movImm5 a b | sub a b =>
    obtain rfl := advance_next h
    exact congrArg (· + 2#32) (setGpr_pc s b _)
  | movea a b c | movhi a b c =>
    obtain rfl := advance_next h
    exact congrArg (· + 4#32) (setGpr_pc s c _)
  | ldsr =>
    obtain rfl := ldsr_next h
    rfl
  | cli | sei =>
    obtain rfl := advance_next h
    rfl
  | ldB | ldH | ldW | inB | inH | inW =>
    obtain rfl := load_next h
    rfl
  | stB | stH | stW | outB | outH | outW =>
    obtain rfl := store_next h
    rfl
  | nop | bv | bc | bz | bnh | bn | br | blt | ble | bnv | bnc | bnz | bh | bp | bge | bgt =>
    exact conditionForm_next_pc rfl h

/-- The four kinds of next address. -/
theorem exec_next_pc_cases {i : Instr} {s t : State} (h : exec i s = .next t) :
    t.pc = s.pc + 2#32 ∨ t.pc = s.pc + 4#32 ∨ (∃ a, i = .jmp a ∧ t.pc = s.gpr a) ∨
      ∃ d, conditionDisp9 i = some d ∧ takenOf i s.psw = true ∧ t.pc = displaced s.pc d := by
  have hpc := nextAddressOfEveryInstruction i s t h
  cases hd : conditionDisp9 i with
  | some d =>
    rw [conditionForm_next_pc hd h]
    split
    · next ht => exact .inr (.inr (.inr ⟨d, rfl, ht, rfl⟩))
    · exact .inl rfl
  | none =>
    cases i with
    | jmp a => exact .inr (.inr (.inl ⟨a, rfl, hpc⟩))
    | movReg | movImm5 | sub | ldsr | cli | sei => exact .inl hpc
    | movea | movhi | ldB | ldH | ldW | inB | inH | inW | stB | stH | stW | outB | outH | outW => exact .inr (.inl hpc)
    | _ => cases hd

/-! ### Evenness of the next address -/

theorem bit0_add (x y : Word) : (x + y).getLsbD 0 = (x.getLsbD 0 ^^ y.getLsbD 0) := by
  rw [BitVec.getLsbD_add (by decide)]
  simp

theorem bit0_displaced {x : Word} (hx : x.getLsbD 0 = false) (d : BitVec 9) : (displaced x d).getLsbD 0 = d.getLsbD 0 := by
  rw [displaced, ← add_sext, bit0_add, hx, sext, BitVec.getLsbD_signExtend]
  simp

/-- Settles O28: both default next addresses are even, and the obligations on software make the other two even. -/
theorem programCounterStaysEven : Obligations.ProgramCounterStaysEven := by
  intro s s1 t i hf hob h
  obtain ⟨hm, -⟩ := step_next h
  rw [step_of_fetch_ready hm hf] at h
  obtain ⟨-, hpc, -⟩ := fetch_ready_frame hf
  have heven : s1.pc.getLsbD 0 = false := by
    rw [hpc]
    exact (fetch_ready hf).1
  obtain ht | ht | ⟨a, rfl, ht⟩ | ⟨d, hd, htaken, ht⟩ := exec_next_pc_cases h
  · rw [ht, bit0_add, heven]
    rfl
  · rw [ht, bit0_add, heven]
    rfl
  · rw [ht]
    exact (Bool.not_eq_true' _).mp hob
  · rw [ht, bit0_displaced heven]
    rw [obligationsMet_conditionForm hd, htaken] at hob
    exact (Bool.not_eq_true' _).mp hob

/-! ### What is written -/

/-- Settles O32, by the shared operation that each instruction ends in. -/
theorem onlyFourInstructionsWriteTheStatusWord : Obligations.OnlyFourInstructionsWriteTheStatusWord := by
  intro i s t h
  cases i with
  | ldsr =>
    obtain rfl := ldsr_next h
    rfl
  | sub | cli | sei =>
    obtain rfl := advance_next h
    rfl
  | jmp =>
    cases h
    rfl
  | movReg a b | movImm5 a b =>
    obtain rfl := advance_next h
    exact setGpr_psw s b _
  | movea a b c | movhi a b c =>
    obtain rfl := advance_next h
    exact setGpr_psw s c _
  | ldB d a b | ldH d a b | ldW d a b | inB d a b | inH d a b | inW d a b =>
    obtain rfl := load_next h
    exact setGpr_psw _ b _
  | stB | stH | stW | outB | outH | outW =>
    obtain rfl := store_next h
    rfl
  | nop | bv | bc | bz | bnh | bn | br | blt | ble | bnv | bnc | bnz | bh | bp | bge | bgt =>
    obtain rfl := branch_next h
    rfl

/-- Settles O33: the register file is written by `setGpr` alone, at the destination. -/
theorem onlyTheDestinationRegisterChanges : Obligations.OnlyTheDestinationRegisterChanges := by
  intro i s t h j hj
  have hother : ∀ r, destination i = some r → j ≠ r := fun r hr e => hj (e ▸ hr)
  cases i with
  | movReg a b | movImm5 a b | sub a b =>
    obtain rfl := advance_next h
    exact setGpr_other s _ (hother b rfl)
  | movea a b c | movhi a b c =>
    obtain rfl := advance_next h
    exact setGpr_other s _ (hother c rfl)
  | ldB d a b | ldH d a b | ldW d a b | inB d a b | inH d a b | inW d a b =>
    obtain rfl := load_next h
    exact setGpr_other _ _ (hother b rfl)
  | stB | stH | stW | outB | outH | outW =>
    obtain rfl := store_next h
    rfl
  | ldsr =>
    obtain rfl := ldsr_next h
    rfl
  | cli | sei =>
    obtain rfl := advance_next h
    rfl
  | jmp =>
    cases h
    rfl
  | nop | bv | bc | bz | bnh | bn | br | blt | ble | bnv | bnc | bnz | bh | bp | bge | bgt =>
    obtain rfl := branch_next h
    rfl

end Sys2Proof.Machine
end

section
/-! PROOFS. What every instruction that completes does to the bus (spec/20_memory.md R72, R74, R79): the loads and the stores as
their common rules with operands, and one inversion lemma over all instructions. -/

namespace Sys2Proof.Machine

/-! ### The loads and the stores by their operands -/

/-- The operands of the one data access of an instruction (R74): its width, and the fields that the common rule R200 or R215
takes. -/
inductive MemAccess where
  | load (w : Width) (disp16 : Halfword) (reg1 reg2 : RegIdx)
  | store (w : Width) (reg2 : RegIdx) (disp16 : Halfword) (reg1 : RegIdx)

/-- The data access of each instruction, IN as the load and OUT as the store of its width. -/
def memAccess : Instr → Option MemAccess
  | .ldB d r1 r2 | .inB d r1 r2 => some (.load .byte d r1 r2)
  | .ldH d r1 r2 | .inH d r1 r2 => some (.load .half d r1 r2)
  | .ldW d r1 r2 | .inW d r1 r2 => some (.load .word d r1 r2)
  | .stB r2 d r1 | .outB r2 d r1 => some (.store .byte r2 d r1)
  | .stH r2 d r1 | .outH r2 d r1 => some (.store .half r2 d r1)
  | .stW r2 d r1 | .outW r2 d r1 => some (.store .word r2 d r1)
  | _ => none

section
variable {i : Instr} {w : Width} {d : Halfword} {r1 r2 : RegIdx}

/-- Every load is the common rule R200 with its width. -/
theorem exec_load (h : memAccess i = some (.load w d r1 r2)) (s : State) : exec i s = s.load i.opcode w d r1 r2 := by
  cases i <;> cases h <;> rfl

/-- Every store is the common rule R215 with its width. -/
theorem exec_store (h : memAccess i = some (.store w r2 d r1)) (s : State) : exec i s = s.store i.opcode w r2 d r1 := by
  cases i <;> cases h <;> rfl

theorem twoHalfwords_of_memAccess {m : MemAccess} (h : memAccess i = some m) : i.opcode.twoHalfwords = true := by
  cases i <;> cases h <;> rfl
end

/-! ### The bus before the commit -/

/-- `s` with the data access of an instruction issued. -/
def State.afterAccess (s : State) : Option MemAccess → State
  | none => s
  | some (.load w d r1 _) => s.afterRead w (s.effAddr r1 d)
  | some (.store w r2 d r1) => s.afterWrite w (s.effAddr r1 d) (s.gpr r2)

/-- The last steps of an instruction: registers and status word are written, then the step is committed. -/
def State.finish (s : State) (regs : Vector Word 31) (psw : Psw) (op : Opcode) (taken : Bool) (npc : Word) : State :=
  State.commit { s with regs := regs, psw := psw } op taken npc

section
variable (s : State) (regs : Vector Word 31) (psw : Psw) (op : Opcode) (taken : Bool) (npc : Word)
@[simp] theorem finish_mem : (s.finish regs psw op taken npc).mem = s.mem := rfl
@[simp] theorem finish_freeCount : (s.finish regs psw op taken npc).freeCount = s.freeCount := rfl
@[simp] theorem finish_busLog :
    (s.finish regs psw op taken npc).busLog = s.busLog ++ [.cycles (Config.cycles op taken)] := rfl
@[simp] theorem finish_cycleTotal :
    (s.finish regs psw op taken npc).cycleTotal = s.cycleTotal + (Config.cycles op taken).toNat := rfl

theorem commit_setGpr_eq_finish (r : RegIdx) (v : Word) :
    (s.setGpr r v).commit op taken npc = s.finish (s.setGpr r v).regs s.psw op taken npc :=
  congrArg (State.commit · op taken npc) (setGpr_eq_with_regs s r v)
end

/-- All that an instruction which completes does to the bus: its one data access, if it has one, then one cycle report. -/
theorem exec_next_finish {i : Instr} {s t : State} (h : exec i s = .next t) :
    ∃ regs psw npc, t = (s.afterAccess (memAccess i)).finish regs psw i.opcode (takenOf i s.psw) npc := by
  cases i with
  | movReg | movImm5 | movea | movhi =>
    rw [advance_next h, commit_setGpr_eq_finish]
    exact ⟨_, _, _, rfl⟩
  | sub a b =>
    rw [advance_next h, setGpr_eq_with_regs s b]
    exact ⟨_, _, _, rfl⟩
  | ldB | ldH | ldW | inB | inH | inW =>
    rw [load_next h, commit_setGpr_eq_finish]
    exact ⟨_, _, _, rfl⟩
  | stB | stH | stW | outB | outH | outW => exact ⟨_, _, _, store_next h⟩
  | ldsr => exact ⟨_, _, _, ldsr_next h⟩
  | cli | sei => exact ⟨_, _, _, advance_next h⟩
  | jmp => exact ⟨_, _, _, ((Host.Outcome.next.injEq ..).mp h).symm⟩
  | nop | bv | bc | bz | bnh | bn | br | blt | ble | bnv | bnc | bnz | bh | bp | bge | bgt =>
    rw [exec_conditionForm rfl] at h
    exact ⟨_, _, _, branch_next h⟩

/-- Settles O42: memory changes in `afterWrite` alone, which only the stores reach. -/
theorem onlyStoresWriteMemory : Obligations.OnlyStoresWriteMemory := by
  intro i s t h
  obtain ⟨regs, psw, npc, rfl⟩ := exec_next_finish h
  cases i with
  | stB | stH | stW | outB | outH | outW => trivial
  | _ => rfl

/-! ### The bus operations of a step -/

theorem effAddr_eq_displaced (s : State) (r1 : RegIdx) (d : Halfword) : s.effAddr r1 d = displaced (s.gpr r1) d := add_sext _ _

theorem dataAccess_load {i : Instr} {w : Width} {d : Halfword} {r1 r2 : RegIdx}
    (h : memAccess i = some (.load w d r1 r2)) (s : State) : dataAccess i s = [w.readEvent (s.effAddr r1 d)] := by
  rw [effAddr_eq_displaced]
  cases i <;> cases h <;> rfl

theorem dataAccess_store {i : Instr} {w : Width} {d : Halfword} {r1 r2 : RegIdx}
    (h : memAccess i = some (.store w r2 d r1)) (s : State) :
    dataAccess i s = [w.writeEvent (s.effAddr r1 d) (s.gpr r2)] := by
  rw [effAddr_eq_displaced]
  cases i <;> cases h <;> simp [dataAccess, Width.writeEvent, BitVec.setWidth_eq_extractLsb']

theorem dataAccess_none {i : Instr} (h : memAccess i = none) (s : State) : dataAccess i s = [] := by
  cases i with
  | ldB | ldH | ldW | inB | inH | inW => cases h
  | stB | stH | stW | outB | outH | outW => cases h
  | _ => rfl

theorem length_dataAccess_le (i : Instr) (s : State) : (dataAccess i s).length ≤ 1 := by
  cases hm : memAccess i with
  | none => simp [dataAccess_none hm]
  | some m =>
    cases m with
    | load => simp [dataAccess_load hm]
    | store => simp [dataAccess_store hm]

theorem afterAccess_busLog (i : Instr) (s : State) :
    (s.afterAccess (memAccess i)).busLog = s.busLog ++ dataAccess i s := by
  cases hm : memAccess i with
  | none => simp [State.afterAccess, dataAccess_none hm]
  | some m =>
    cases m with
    | load => simp [State.afterAccess, dataAccess_load hm]
    | store => simp [State.afterAccess, dataAccess_store hm]

theorem afterAccess_cycleTotal (s : State) (m : Option MemAccess) : (s.afterAccess m).cycleTotal = s.cycleTotal := by
  obtain _ | _ | _ := m <;> rfl

theorem dataAccess_congr {s s' : State} (h : s'.regs = s.regs) (i : Instr) : dataAccess i s' = dataAccess i s := by
  have hg : s'.gpr = s.gpr := funext (gpr_congr h)
  simp only [dataAccess, hg]

/-- The fetches that a step has issued when it comes to execute its instruction. -/
theorem fetch_ready_busLog {s s1 : State} {i : Instr} (h : s.fetch = .ready i s1) : s1.busLog = fetchEvents i s.pc := by
  obtain ⟨-, -, ⟨h2, -, rfl⟩ | ⟨h2, -, rfl⟩⟩ := fetch_ready h <;> simp [fetchEvents, h2, Width.readEvent]

/-- The bus operations of a step whose instruction completes. -/
theorem busLog_of_fetch_exec {s s1 t : State} {i : Instr} (hf : s.fetch = .ready i s1) (h : exec i s1 = .next t) :
    t.busLog = fetchEvents i s.pc ++ dataAccess i s ++ [.cycles (Config.cycles i.opcode (takenOf i s.psw))] := by
  obtain ⟨hregs, -, hpsw, -⟩ := fetch_ready_frame hf
  obtain ⟨regs, psw, npc, rfl⟩ := exec_next_finish h
  rw [finish_busLog, afterAccess_busLog, fetch_ready_busLog hf, dataAccess_congr hregs, hpsw]

/-- Settles O54: the fetches, then what `exec_next_finish` says that the instruction adds. -/
theorem busOperationsOfAStepInOrder : Obligations.BusOperationsOfAStepInOrder := by
  intro s t h
  obtain ⟨-, i, s1, hf, he⟩ := step_next h
  refine ⟨i, s1, hf, busLog_of_fetch_exec hf he, length_dataAccess_le i s, ?_⟩
  obtain ⟨-, -, hpsw, -, -, hcycles⟩ := fetch_ready_frame hf
  obtain ⟨regs, psw, npc, rfl⟩ := exec_next_finish he
  rw [finish_cycleTotal, afterAccess_cycleTotal, hcycles, hpsw]

end Sys2Proof.Machine
end

section
/-! PROOFS. The refusals of the reference bus (spec/20_memory.md R78, R87): of the accesses of a step only the data access can be
refused, and an access that is not refused uses no free value. -/

namespace Sys2Proof.Machine

@[simp] theorem meetsRequires_readEvent (w : Width) (a : Word) : (w.readEvent a).meetsRequires = w.aligned a := by
  cases w <;> rfl

@[simp] theorem meetsRequires_writeEvent (w : Width) (a v : Word) : (w.writeEvent a v).meetsRequires = w.aligned a := by
  cases w <;> rfl

/-! ### The fetches are never refused -/

theorem even_pc_of_fetch_ready {s s1 : State} {i : Instr} (h : s.fetch = .ready i s1) : s.pc.toNat % 2 = 0 := by
  simpa [-BitVec.getLsbD_eq_getElem, bit0_eq_decide] using (fetch_ready h).1

theorem firstRefused_fetchEvents {pc : Word} (hp : pc.toNat % 2 = 0) (i : Instr) : firstRefused (fetchEvents i pc) = none := by
  have h1 := (aligned_half pc).2 hp
  have h2 := aligned_half_add_two hp
  unfold fetchEvents
  split <;> simp [firstRefused, BusEvent.meetsRequires, h1, h2]

/-- The only access of a completed step that the reference bus may refuse is its data access. -/
theorem firstRefused_busLog {s s1 t : State} {i : Instr} (hf : s.fetch = .ready i s1) (h : exec i s1 = .next t) :
    firstRefused t.busLog = firstRefused (dataAccess i s) := by
  have hfetch := firstRefused_fetchEvents (even_pc_of_fetch_ready hf) i
  rw [busLog_of_fetch_exec hf h]
  unfold firstRefused at hfetch ⊢
  rw [List.find?_append, List.find?_append, hfetch]
  simp [BusEvent.meetsRequires]

/-! ### No free value is used -/

theorem afterRead_freeCount_of_aligned {s : State} {w : Width} {a : Word} (h : w.aligned a = true) :
    (s.afterRead w a).freeCount = s.freeCount := if_pos h

theorem afterWrite_freeCount_of_aligned {s : State} {w : Width} {a v : Word} (h : w.aligned a = true) :
    (s.afterWrite w a v).freeCount = s.freeCount := if_pos h

theorem fetch_ready_freeCount {s s1 : State} {i : Instr} (h : s.fetch = .ready i s1) : s1.freeCount = s.freeCount := by
  have hp := even_pc_of_fetch_ready h
  have h1 : (s.beginStep.afterRead .half s.pc).freeCount = s.freeCount :=
    afterRead_freeCount_of_aligned ((aligned_half _).2 hp)
  obtain ⟨-, -, ⟨-, -, rfl⟩ | ⟨-, -, rfl⟩⟩ := fetch_ready h
  · rw [afterRead_freeCount_of_aligned (aligned_half_add_two hp), h1]
  · exact h1

theorem afterAccess_freeCount {i : Instr} {s : State} (h : ∀ e ∈ dataAccess i s, e.meetsRequires = true) :
    (s.afterAccess (memAccess i)).freeCount = s.freeCount := by
  cases hm : memAccess i with
  | none => rfl
  | some m =>
    cases m with
    | load => exact afterRead_freeCount_of_aligned (by simpa [dataAccess_load hm] using h)
    | store => exact afterWrite_freeCount_of_aligned (by simpa [dataAccess_store hm] using h)

/-- A completed step of which every access meets its `requires` clause uses no free value. -/
theorem step_freeCount {s t : State} (h : step s = .next t) (hr : ∀ e ∈ t.busLog, e.meetsRequires = true) :
    t.freeCount = s.freeCount := by
  obtain ⟨-, i, s1, hf, he⟩ := step_next h
  have hlog := busLog_of_fetch_exec hf he
  obtain ⟨hregs, -⟩ := fetch_ready_frame hf
  have hdata : ∀ e ∈ dataAccess i s1, e.meetsRequires = true := by
    rw [dataAccess_congr hregs]
    exact fun e hmem => hr e (by simp [hlog, hmem])
  obtain ⟨regs, psw, npc, rfl⟩ := exec_next_finish he
  rw [finish_freeCount, afterAccess_freeCount hdata, fetch_ready_freeCount hf]

/-! ### The step on the reference bus -/

theorem clear_busAnswers {s : State} (h : s.busAnswers = []) : { s with busAnswers := [] } = s := by
  rw [← h]

/-- A step that the core completes, on the reference bus: it is refused with its data access, or goes on to the same state. -/
theorem stepOnRefBus_of_step_next {s s1 t : State} {i : Instr} (hq : s.busAnswers = []) (h : step s = .next t)
    (hf : s.fetch = .ready i s1) :
    stepOnRefBus s = (firstRefused (dataAccess i s)).elim (.next t) fun e => .refused (.referenceBusRefuses e) := by
  obtain ⟨hm, -⟩ := step_next h
  have he : exec i s1 = .next t := step_of_fetch_ready hm hf ▸ h
  rw [← firstRefused_busLog hf he, stepOnRefBus, clear_busAnswers hq, h]
  cases hr : firstRefused t.busLog <;> simp [hr]

theorem stepOnRefBus_of_step_refused {s : State} {r : Refusal} (h : step { s with busAnswers := [] } = .refused r) :
    stepOnRefBus s = .refused r := by
  simp [stepOnRefBus, h]

theorem firstRefused_singleton_elim {α : Type} (e : BusEvent) (x : α) (f : BusEvent → α) :
    (firstRefused [e]).elim x f = if e.meetsRequires then x else f e := by
  cases h : e.meetsRequires <;> simp [firstRefused, h]

/-- Settles O59: the data access is the only one that can be refused, and a step that goes on has had none refused. -/
theorem referenceBusRefusesMisalignedAccesses : Obligations.ReferenceBusRefusesMisalignedAccesses := by
  intro s hq
  have hs := clear_busAnswers hq
  refine ⟨fun t i s1 h hf => ?_, fun f h => stepOnRefBus_fault (hs ▸ h), fun r h => stepOnRefBus_of_step_refused (hs ▸ h),
    fun t h => ?_⟩
  · rw [stepOnRefBus_of_step_next hq h hf]
    have hl := length_dataAccess_le i s
    generalize dataAccess i s = l at hl ⊢
    match l, hl with
    | [], _ => rfl
    | [e], _ =>
      rw [firstRefused_singleton_elim]
      cases e with
      | readByte | writeByte | cycles => rfl
      | readHalfword | writeHalfword => simp only [BusEvent.meetsRequires, aligned_half, List.head?]
      | readWord | writeWord => simp only [BusEvent.meetsRequires, aligned_word, List.head?]
  · obtain ⟨hstep, hr⟩ := stepOnRefBus_next h
    rw [hs] at hstep
    exact step_freeCount hstep hr

end Sys2Proof.Machine
end

section
/-! PROOFS. The bytes of the reference bus under loads and stores (spec/20_memory.md R71, R81, R83, R85, R87): what a load takes, what
an aligned store leaves, and that the one gives the other back. -/

namespace Sys2Proof.Machine

/-! ### A load takes the bus's answer -/

theorem writesRegister_setGpr (s : State) (r : RegIdx) (v : Word) : WritesRegister s (s.setGpr r v) r v := by
  refine ⟨?_, fun j hj => setGpr_other s v hj⟩
  split
  · next h => rw [h, setGpr_zero, gpr_zero]
  · next h => exact setGpr_same s v h

/-- Every load completes with the extended answer at its destination (R200). -/
theorem loadsValue_of_memAccess {i : Instr} {w : Width} {d : Halfword} {r1 r2 : RegIdx}
    (h : memAccess i = some (.load w d r1 r2)) (s : State) :
    LoadsValue i s (w.readEvent (s.effAddr r1 d)) r2 (w.extend (s.readAnswer w (s.effAddr r1 d))) := by
  have hnext : ∀ u : State, u.defaultNext i.opcode = u.pc + 4#32 := fun u => by
    rw [State.defaultNext, if_pos (twoHalfwords_of_memAccess h)]
  refine ⟨_, exec_load h s, ?_, ?_, ?_, ?_, writesRegister_setGpr (s.afterRead w (s.effAddr r1 d)) r2 _, ?_, fun a => ?_, ?_⟩
  all_goals simp [hnext]

/-- Cutting an answer to the width loses nothing that the load keeps. -/
@[simp] theorem extend_trunc (w : Width) (v : Word) : w.extend (w.trunc v) = w.extend v := by
  cases w <;> simp [Width.extend, Width.trunc]

/-- A load whose answer is queued takes it (R71). -/
theorem loadsValue_queued (w : Width) {i : Instr} {d : Halfword} {r1 r2 : RegIdx}
    (h : memAccess i = some (.load w d r1 r2)) {s : State} {v : Word} {rest : List (Option Word)}
    (hq : s.busAnswers = some v :: rest) : LoadsValue i s (w.readEvent (s.effAddr r1 d)) r2 (w.extend v) := by
  rw [← extend_trunc, ← readAnswer_queued w (s.effAddr r1 d) hq]
  exact loadsValue_of_memAccess h s

/-- Settles O35: the queue answers every read, aligned or not. -/
theorem loadsTakeAnyBusAnswer : Obligations.LoadsTakeAnyBusAnswer := fun _ _ _ _ _ _ hq =>
  ⟨loadsValue_queued .byte rfl hq, loadsValue_queued .half rfl hq, loadsValue_queued .word rfl hq,
    loadsValue_queued .byte rfl hq, loadsValue_queued .half rfl hq, loadsValue_queued .word rfl hq⟩

/-! ### The little-endian value of the bytes -/

theorem setWidth_joinBytes (lo hi : Byte) : (joinBytes lo hi).setWidth 32 = lo.setWidth 32 ||| hi.setWidth 32 <<< 8 := by
  apply BitVec.eq_of_getLsbD_eq
  intro k hk
  simp only [joinBytes, BitVec.getLsbD_setWidth, BitVec.getLsbD_or, BitVec.getLsbD_shiftLeft]
  by_cases h : k < 16
  · simp [h, hk, show k - 8 < 16 by omega, show k - 8 < 32 by omega]
  · simp [h, hk, BitVec.getLsbD_of_ge lo k (by omega), BitVec.getLsbD_of_ge hi (k - 8) (by omega)]

theorem packedBelow_byte (b : Byte) : PackedBelow (b.setWidth 32) b.toNat 8 :=
  ⟨BitVec.toNat_setWidth_of_le (by decide), b.isLt⟩

section
variable (m : Memory) (a : Word)

theorem toNat_readWidth_byte : (Memory.readWidth m .byte a).toNat = (Memory.readByte m a).toNat :=
  (packedBelow_byte _).1

theorem toNat_readWidth_half : (Memory.readWidth m .half a).toNat =
    (Memory.readByte m a).toNat + 2 ^ 8 * (Memory.readByte m (a + 1#32)).toNat := by
  rw [Memory.readWidth, Memory.readHalfword, setWidth_joinBytes]
  exact ((packedBelow_byte _).or_field _ 8).1

theorem toNat_readWidth_word : (Memory.readWidth m .word a).toNat =
    (Memory.readByte m a).toNat + 2 ^ 8 * (Memory.readByte m (a + 1#32)).toNat +
      2 ^ 16 * (Memory.readByte m (a + 2#32)).toNat + 2 ^ 24 * (Memory.readByte m (a + 3#32)).toNat :=
  ((((packedBelow_byte _).or_field _ 8).or_field _ 16).or_field _ 24).1
end

theorem readAnswer_aligned {s : State} {w : Width} {a : Word} (hq : s.busAnswers = []) (ha : w.aligned a = true) :
    s.readAnswer w a = Memory.readWidth s.mem w a := by
  rw [readAnswer_memory w a hq, memoryAnswer_aligned ha]

/-- Settles O36: the bytes' places in the value do not overlap, so the or of them is their sum. -/
theorem referenceBusReadsLittleEndian : Obligations.ReferenceBusReadsLittleEndian := by
  intro s a hq
  refine ⟨?_, fun ha => ?_, fun ha => ?_⟩
  · rw [readAnswer_aligned hq (aligned_byte a), toNat_readWidth_byte]
  · rw [readAnswer_aligned hq ((aligned_half a).2 ha), toNat_readWidth_half]
  · rw [readAnswer_aligned hq ((aligned_word a).2 ha), toNat_readWidth_word]

/-! ### What an aligned store leaves -/

/-- After a write of one width at an address, in canonical memory, the bytes from there up are the value's (R87). -/
theorem readByte_writeWidth {m : Memory} (hm : Memory.wf m = true) {w : Width} {k : Nat} (hk : k < w.bytes) (a v : Word) :
    Memory.readByte (Memory.writeWidth m w a v) (a + BitVec.ofNat 32 k) = v.extractLsb' (8 * k) 8 := by
  have hw : w.bytes ≤ 4 := by cases w <;> decide
  have hlen : ((wordBytes v).take w.bytes).length = w.bytes := by simp [wordBytes, hw]
  unfold Memory.writeWidth
  rw [readByte_writeBytes_same hm a _ (by omega) k (by omega), List.getElem_take]
  have hk4 : k < 4 := by omega
  interval_cases k <;> rfl

/-- An aligned store leaves its bytes (R216 to R221). -/
theorem leavesBytes_of_memAccess (w : Width) {i : Instr} {d : Halfword} {r1 r2 : RegIdx}
    (h : memAccess i = some (.store w r2 d r1)) {s : State} (hm : Memory.wf s.mem = true)
    (ha : w.aligned (s.effAddr r1 d) = true) :
    LeavesBytes (exec i s) (s.effAddr r1 d) (s.gpr r2) w.bytes := by
  refine ⟨_, exec_store h s, fun k hk => ?_⟩
  rw [commit_mem, afterWrite_mem, memoryAfterWrite_aligned _ ha]
  exact readByte_writeWidth hm hk _ _

/-- Settles O40: each width's store at an address aligned to it. -/
theorem alignedStoresLeaveTheirBytes : Obligations.AlignedStoresLeaveTheirBytes := by
  intro r2 d r1 s hm
  refine ⟨leavesBytes_of_memAccess .byte rfl hm rfl, leavesBytes_of_memAccess .byte rfl hm rfl, fun ha => ?_, fun ha => ?_⟩
  · have ha := (aligned_half _).2 ha
    exact ⟨leavesBytes_of_memAccess .half rfl hm ha, leavesBytes_of_memAccess .half rfl hm ha⟩
  · have ha := (aligned_word _).2 ha
    exact ⟨leavesBytes_of_memAccess .word rfl hm ha, leavesBytes_of_memAccess .word rfl hm ha⟩

/-! ### A load after a store -/

/-- A read of one width gives back what a write of that width left at the address. -/
theorem readWidth_writeWidth {m : Memory} (hm : Memory.wf m = true) (w : Width) (a v : Word) :
    Memory.readWidth (Memory.writeWidth m w a v) w a = w.trunc v := by
  have hbyte : ∀ k < w.bytes, (Memory.readByte (Memory.writeWidth m w a v) (a + BitVec.ofNat 32 k)).toNat =
      v.toNat / 2 ^ (8 * k) % 2 ^ 8 := fun k hk => by
    rw [readByte_writeWidth hm hk, BitVec.extractLsb'_toNat, Nat.shiftRight_eq_div_pow]
  have h0 := hbyte 0 (by cases w <;> decide)
  rw [BitVec.add_zero] at h0
  apply BitVec.eq_of_toNat_eq
  cases w with
  | byte =>
    rw [toNat_readWidth_byte, h0]
    simp [Width.trunc]
    omega
  | half =>
    rw [toNat_readWidth_half, h0, hbyte 1 (by decide)]
    simp [Width.trunc]
    omega
  | word =>
    have hv := v.isLt
    rw [toNat_readWidth_word, h0, hbyte 1 (by decide), hbyte 2 (by decide), hbyte 3 (by decide)]
    simp [Width.trunc]
    omega

/-- After an aligned store the bus answers a read of the same width at its address with the stored value, cut to the width
(R83). -/
theorem readAnswer_after_store {s t : State} {op : Opcode} {w : Width} {r2 r1 : RegIdx} {d : Halfword} {a : Word}
    (h : s.store op w r2 d r1 = .next t) (hm : Memory.wf s.mem = true) (hq : s.busAnswers = []) (heff : s.effAddr r1 d = a)
    (ha : w.aligned a = true) : t.readAnswer w a = w.trunc (s.gpr r2) := by
  subst heff
  have hqt : t.busAnswers = [] := by rw [store_next h]; exact hq
  rw [readAnswer_aligned hqt ha, store_next h, commit_mem, afterWrite_mem, memoryAfterWrite_aligned _ ha,
    readWidth_writeWidth hm]

theorem store_then_load {s t u : State} {op op' : Opcode} {w : Width} {r n b b' : RegIdx} {d d' : Halfword} (hn : n ≠ 0#5)
    (hm : Memory.wf s.mem = true) (hq : s.busAnswers = []) (heff : s.effAddr b d = s.effAddr b' d')
    (ha : w.aligned (s.effAddr b d) = true) (hst : s.store op w r d b = .next t) (hld : t.load op' w d' b' n = .next u) :
    u.gpr n = w.extend (s.gpr r) := by
  have heff' : t.effAddr b' d' = s.effAddr b' d' := by
    rw [store_next hst]
    rfl
  rw [load_next hld, commit_gpr, setGpr_same _ _ hn, heff',
    readAnswer_after_store hst hm hq heff (heff ▸ ha), extend_trunc]

/-- Settles O43: the three widths are the same argument. -/
theorem storeThenLoadGivesTheValueBack : Obligations.StoreThenLoadGivesTheValueBack := by
  intro r n b b' d d' s t u hn hm hq heff
  exact ⟨fun ha => store_then_load hn hm hq heff ((aligned_word _).2 ha),
    fun ha => store_then_load hn hm hq heff ((aligned_half _).2 ha), store_then_load hn hm hq heff rfl⟩

/-! ### A fetch after a store -/

/-- Settles O44: the fetch at the next `pc` is a halfword read at the address stored to. -/
theorem storedInstructionIsFetched : Obligations.StoredInstructionIsFetched := by
  intro r d b s t op hm hq hmark heff hp hc h2 h
  have ht := store_next h
  have hpc : t.pc = s.pc + 4#32 := by rw [ht]; rfl
  have hpt : t.pc.toNat % 2 = 0 := by
    rw [hpc, BitVec.toNat_add]
    simp
    omega
  have hqt : t.busAnswers = [] := by rw [ht]; exact hq
  have hmt : t.faultMark = none := by rw [ht]; exact hmark
  have hal := (aligned_half t.pc).2 hpt
  have hans : t.fetchAnswer t.pc = (s.gpr r).extractLsb' 0 16 := by
    rw [State.fetchAnswer, readAnswer_after_store h hm hq (heff.trans hpc.symm) hal, Width.trunc,
      ← BitVec.setWidth_eq_extractLsb' (by decide)]
    simp
  rw [← hans] at hc ⊢
  rw [step_of_fetch_ready hmt (fetch_oneHalfword (bit0_of_even hpt) hc h2), afterRead_of_aligned hal]
  simp [State.beginStep, hqt, Width.readEvent]

end Sys2Proof.Machine
end

section
/-! PROOFS. The decoder against the tables of the spec (spec/30_encoding.md R106, R111 to R113, R122): which halfwords are
classified as which opcode, and which bits of a halfword its instruction keeps. -/

namespace Sys2Proof

open Sys2Proof.Machine

/-! ### Masks on packed halfwords -/

theorem packFields_and (o o' : BitVec 6) (b b' a a' : BitVec 5) :
    packFields o b a &&& packFields o' b' a' = packFields (o &&& o') (b &&& b') (a &&& a') := by
  unfold packFields
  rw [BitVec.and_append, BitVec.and_append]

theorem packCond_and_dispMask (c : BitVec 4) (d : BitVec 9) : packCond c d &&& 0xFE00#16 = packCond c 0#9 := by
  unfold packCond
  rw [show 0xFE00#16 = 0b111#3 ++ BitVec.allOnes 4 ++ 0#9 from rfl, BitVec.and_append, BitVec.and_append,
    BitVec.and_allOnes, BitVec.and_zero]
  rfl

theorem packFields_and_opc6Mask (o : BitVec 6) (b a : BitVec 5) : packFields o b a &&& 0xFC00#16 = packFields o 0#5 0#5 := by
  rw [show 0xFC00#16 = packFields (BitVec.allOnes 6) 0#5 0#5 from rfl, packFields_and]
  simp only [BitVec.and_allOnes, BitVec.and_zero]

theorem packFields_and_reg2Mask (o : BitVec 6) (b a : BitVec 5) : packFields o b a &&& 0xFC1F#16 = packFields o 0#5 a := by
  rw [show 0xFC1F#16 = packFields (BitVec.allOnes 6) 0#5 (BitVec.allOnes 5) from rfl, packFields_and]
  simp only [BitVec.and_allOnes, BitVec.and_zero]

theorem halfword_and_allBits (h : Halfword) : h &&& 0xFFFF#16 = h := BitVec.and_allOnes

/-! ### Classification, inverted -/

/-- Bits 15 to 13 are the top of `opc6`. -/
theorem top3_opc6 (h : Halfword) : (h.extractLsb' 10 6).extractLsb' 3 3 = h.extractLsb' 13 3 := by
  rw [← top3_packFields _ (fieldReg2 h) (fieldLow5 h), packFields_fields]

/-- The first table of R111 leaves `opc6` = 100xxx to the condition table. -/
theorem top3_of_opc6Opcode {o : BitVec 6} {op : Opcode} (ho : opc6Opcode o = some op) : o.extractLsb' 3 3 ≠ 0b100#3 := by
  have key : ∀ o : BitVec 6, o.extractLsb' 3 3 = 0b100#3 → opc6Opcode o = none := by decide
  intro e
  rw [key o e] at ho
  cases ho

/-- A recognized halfword is packed from a condition, or from an assigned `opc6`. -/
theorem classify_eq_some_iff {h : Halfword} {op : Opcode} :
    classify h = some op ↔
      (∃ c d, h = packCond c d ∧ condOpcode c = op) ∨ ∃ o b a, h = packFields o b a ∧ opc6Opcode o = some op := by
  constructor
  · intro hc
    obtain ⟨c, d, rfl, hcond⟩ | ⟨o, b, a, rfl, -, hopc6⟩ := classify_cases h
    · exact .inl ⟨c, d, rfl, Option.some.inj (hcond.symm.trans hc)⟩
    · exact .inr ⟨o, b, a, rfl, hopc6.symm.trans hc⟩
  · rintro (⟨c, d, rfl, rfl⟩ | ⟨o, b, a, rfl, ho⟩)
    · exact classify_packCond c d
    · rw [classify_packFields b a (top3_of_opc6Opcode ho), ho]

theorem classify_eq_none_iff (h : Halfword) :
    classify h = none ↔ opc6Opcode (h.extractLsb' 10 6) = none ∧ h.extractLsb' 13 3 ≠ 0b100#3 := by
  unfold classify
  split <;> simp [*]

/-! ### The unassigned values -/

theorem mem_unassignedOpc6_iff :
    ∀ o : BitVec 6, o.toNat ∈ unassignedOpc6 ↔ opc6Opcode o = none ∧ o.extractLsb' 3 3 ≠ 0b100#3 := by
  decide

/-- Settles O5: R112's values are those outside the first table of R111 and outside the condition forms. -/
theorem unrecognizedIsTheListedValues : Obligations.UnrecognizedIsTheListedValues :=
  ⟨rfl, fun hw1 => by rw [classify_eq_none_iff, mem_unassignedOpc6_iff, top3_opc6]⟩

/-- Settles O49: the fetch stops after its first bus read, and entering the fault sets the mark alone. -/
theorem unrecognizedHalfwordFaults : Obligations.UnrecognizedHalfwordFaults := by
  intro s hm hp hu
  have hc : classify (s.fetchAnswer s.pc) = none := (unrecognizedIsTheListedValues.2 _).2 hu
  have hf := fetch_unrecognized (bit0_of_even hp) hc
  refine ⟨hc, step_of_fetch_stop hm hf, ?_⟩
  rw [afterStep_of_fetch_stop hm hf]
  exact ⟨⟨fun _ => rfl, rfl, rfl⟩, rfl, rfl, rfl, rfl⟩

/-! ### The length from the top bits -/

theorem opc6_ge_iff_top3 : ∀ o : BitVec 6, 0x28 ≤ o.toNat ↔ (o.extractLsb' 3 3).toNat ∈ [5, 6, 7] := by
  decide

theorem twoHalfwords_condOpcode : ∀ c : BitVec 4, (condOpcode c).twoHalfwords = false := by
  decide

theorem twoHalfwords_of_opc6Opcode :
    ∀ o : BitVec 6, ∀ op ∈ opc6Opcode o, (op.twoHalfwords = true ↔ 0x28 ≤ o.toNat) := by
  decide

/-- Settles O7: the condition forms have the top bits 100, and the assigned values of `opc6` from 0x28 up are formats V and VI. -/
theorem twoHalfwordsFromTheTopBits : Obligations.TwoHalfwordsFromTheTopBits := by
  intro hw1 op hc
  rw [opc6_ge_iff_top3, top3_opc6, and_self]
  obtain ⟨c, d, rfl, rfl⟩ | ⟨o, b, a, rfl, ho⟩ := classify_eq_some_iff.1 hc
  · simp [twoHalfwords_condOpcode, top3_packCond]
  · rw [twoHalfwords_of_opc6Opcode o op ho, opc6_ge_iff_top3, top3_packFields]

/-! ### The match and mask table -/

theorem and_opc6Mask_eq_iff (h : Halfword) (o : BitVec 6) :
    h &&& 0xFC00#16 = packFields o 0#5 0#5 ↔ ∃ b a, h = packFields o b a := by
  constructor
  · intro hm
    rw [← packFields_fields h, packFields_and_opc6Mask] at hm
    have ho := congrArg (BitVec.extractLsb' 10 6) hm
    rw [opc6_packFields, opc6_packFields] at ho
    exact ⟨_, _, by rw [← ho, packFields_fields]⟩
  · rintro ⟨b, a, rfl⟩
    exact packFields_and_opc6Mask o b a

theorem and_condMask_eq_iff (h : Halfword) (c : BitVec 4) :
    h &&& 0xFE00#16 = packCond c 0#9 ↔ ∃ d, h = packCond c d := by
  constructor
  · intro hm
    have ht : h.extractLsb' 13 3 = 0b100#3 := by
      have := congrArg (BitVec.extractLsb' 13 3) hm
      rwa [BitVec.extractLsb'_and, top3_packCond, show (0xFE00#16).extractLsb' 13 3 = BitVec.allOnes 3 from rfl,
        BitVec.and_allOnes] at this
    rw [← packCond_fields ht, packCond_and_dispMask] at hm
    have hc := congrArg (BitVec.extractLsb' 9 4) hm
    rw [cond_packCond, cond_packCond] at hc
    exact ⟨_, by rw [← hc, packCond_fields ht]⟩
  · rintro ⟨d, rfl⟩
    exact packCond_and_dispMask c d

/-- The rows of the match and mask table: one for each condition, one for each assigned `opc6`. -/
theorem mem_opcodeTable_iff {op : Opcode} {m mask : Halfword} :
    (op, m, mask) ∈ opcodeTable ↔
      (∃ c, condOpcode c = op ∧ m = packCond c 0#9 ∧ mask = 0xFE00#16) ∨
        ∃ o, opc6Opcode o = some op ∧ m = packFields o 0#5 0#5 ∧ mask = 0xFC00#16 := by
  constructor
  · have rows : ∀ r ∈ opcodeTable,
        (∃ c, condOpcode c = r.1 ∧ r.2.1 = packCond c 0#9 ∧ r.2.2 = 0xFE00#16) ∨
          ∃ o, opc6Opcode o = some r.1 ∧ r.2.1 = packFields o 0#5 0#5 ∧ r.2.2 = 0xFC00#16 := by decide
    exact rows (op, m, mask)
  · have condRows : ∀ c, (condOpcode c, packCond c 0#9, 0xFE00#16) ∈ opcodeTable := by decide
    have opc6Rows : ∀ o, ∀ op ∈ opc6Opcode o, (op, packFields o 0#5 0#5, 0xFC00#16) ∈ opcodeTable := by decide
    rintro (⟨c, rfl, rfl, rfl⟩ | ⟨o, ho, rfl, rfl⟩)
    · exact condRows c
    · exact opc6Rows o op ho

theorem classify_eq_some_iff_row (h : Halfword) (op : Opcode) :
    classify h = some op ↔ ∃ m mask, (op, m, mask) ∈ opcodeTable ∧ h &&& mask = m := by
  rw [classify_eq_some_iff]
  constructor
  · rintro (⟨c, d, rfl, hop⟩ | ⟨o, b, a, rfl, hop⟩)
    · exact ⟨_, _, mem_opcodeTable_iff.2 (.inl ⟨c, hop, rfl, rfl⟩), packCond_and_dispMask c d⟩
    · exact ⟨_, _, mem_opcodeTable_iff.2 (.inr ⟨o, hop, rfl, rfl⟩), packFields_and_opc6Mask o b a⟩
  · rintro ⟨m, mask, hrow, hm⟩
    obtain ⟨c, hop, rfl, rfl⟩ | ⟨o, hop, rfl, rfl⟩ := mem_opcodeTable_iff.1 hrow
    · obtain ⟨d, rfl⟩ := (and_condMask_eq_iff h c).1 hm
      exact .inl ⟨c, d, rfl, hop⟩
    · obtain ⟨b, a, rfl⟩ := (and_opc6Mask_eq_iff h o).1 hm
      exact .inr ⟨o, b, a, rfl, hop⟩

theorem nodup_opcodes_opcodeTable : (opcodeTable.map Prod.fst).Nodup := by
  decide

/-- Settles O6: two rows that match one halfword are rows of the opcode it is classified as, and every opcode has one row. -/
theorem classifyAgreesWithMatchAndMask : Obligations.ClassifyAgreesWithMatchAndMask := by
  refine ⟨classify_eq_some_iff_row, rfl, fun hw1 r r' hr hr' hm hm' => ?_⟩
  have hc : classify hw1 = some r.1 := (classify_eq_some_iff_row _ _).2 ⟨_, _, hr, hm⟩
  have hc' : classify hw1 = some r'.1 := (classify_eq_some_iff_row _ _).2 ⟨_, _, hr', hm'⟩
  exact List.inj_on_of_nodup_map nodup_opcodes_opcodeTable hr hr' (Option.some.inj (hc.symm.trans hc'))

/-! ### Encoding what was extracted -/

/-- Each condition keeps its displacement, but for NOP, which ignores it. -/
theorem encode_extract_packCond (c : BitVec 4) (d : BitVec 9) (hw2 : Halfword) :
    encode ((condOpcode c).extract (packCond c d) hw2) = [packCond c d &&& (condOpcode c).usedBits] := by
  obtain ⟨c⟩ := c
  fin_cases c <;>
    simp [condOpcode, Opcode.extract, encode, Opcode.usedBits, fieldDisp9_packCond, halfword_and_allBits,
      packCond_and_dispMask]

/-- Each assigned `opc6` keeps both fields, but for JMP, which ignores `reg2`, and CLI and SEI, which ignore both. -/
theorem encode_extract_packFields {o : BitVec 6} {op : Opcode} (ho : opc6Opcode o = some op) (b a : BitVec 5) (hw2 : Halfword) :
    encode (op.extract (packFields o b a) hw2) =
      (packFields o b a &&& op.usedBits) :: if op.twoHalfwords then [hw2] else [] := by
  obtain ⟨o⟩ := o
  fin_cases o <;> cases ho <;>
    simp [Opcode.extract, encode, Opcode.usedBits, Opcode.twoHalfwords, Opcode.format, fieldLow5_packFields,
      fieldReg2_packFields, halfword_and_allBits, packFields_and_reg2Mask, packFields_and_opc6Mask]

/-- Settles O4: the fields extracted are those packed, but for the fields that JMP, CLI, SEI and NOP ignore. -/
theorem encodeOfDecodeKeepsUsedBits : Obligations.EncodeOfDecodeKeepsUsedBits := by
  intro hw1 hw2 op hc
  obtain ⟨c, d, rfl, rfl⟩ | ⟨o, b, a, rfl, ho⟩ := classify_eq_some_iff.1 hc
  · simp [encode_extract_packCond, twoHalfwords_condOpcode]
  · exact encode_extract_packFields ho b a hw2

end Sys2Proof
end

section
/-! PROOFS. The words of the instructions as the rules of the spec write them, `base | reg2 << 5 | low5` (spec/30_encoding.md R101,
R102, R104, R105, R111): what they decode to, and how many fetches a step has issued when it comes to execute it. -/

namespace Sys2Proof.Machine

/-- Halfwords that decode to an instruction, whatever follows, encode it: a step that comes to execute it has fetched that many. -/
theorem encodes_of_decode {hws : List Halfword} {i : Instr} (hd : ∀ rest, decode (hws ++ rest) = .instr i rest)
    (hl : hws.length = if i.opcode.twoHalfwords then 2 else 1) : Encodes hws i := by
  refine ⟨hd, fun s s1 hf => ?_⟩
  rw [fetch_ready_busLog hf, hl, fetchEvents]
  split <;> simp [List.range_succ]

/-! ### The rows of the opcode table with two operand fields -/

section
variable {op : Opcode} {base : Halfword} (hrow : (op, base, 0xFC00#16) ∈ opcodeTable) (b a : BitVec 5)
include hrow

theorem fieldWord_eq_packFields : ∃ o, opc6Opcode o = some op ∧ fieldWord base b a = packFields o b a := by
  obtain ⟨c, -, -, hmask⟩ | ⟨o, ho, rfl, -⟩ := mem_opcodeTable_iff.1 hrow
  · exact absurd hmask (by decide)
  · refine ⟨o, ho, ?_⟩
    rw [packFields_eq_or o b a, packFields_eq_or o 0#5 0#5]
    simp [fieldWord]

theorem classify_fieldWord : classify (fieldWord base b a) = some op := by
  obtain ⟨o, ho, hw⟩ := fieldWord_eq_packFields hrow b a
  exact classify_eq_some_iff.2 (.inr ⟨o, b, a, hw, ho⟩)

theorem fieldLow5_fieldWord : fieldLow5 (fieldWord base b a) = a := by
  obtain ⟨o, -, hw⟩ := fieldWord_eq_packFields hrow b a
  rw [hw, fieldLow5_packFields]

theorem fieldReg2_fieldWord : fieldReg2 (fieldWord base b a) = b := by
  obtain ⟨o, -, hw⟩ := fieldWord_eq_packFields hrow b a
  rw [hw, fieldReg2_packFields]

/-- Formats I and II: the instruction is `f` of the two fields. -/
theorem encodes_oneHalfword {f : BitVec 5 → BitVec 5 → Instr} (h2 : op.twoHalfwords = false)
    (hf : ∀ hw1, op.extract hw1 0#16 = f (fieldLow5 hw1) (fieldReg2 hw1)) : Encodes [fieldWord base b a] (f a b) := by
  have hi := hf (fieldWord base b a)
  rw [fieldLow5_fieldWord hrow, fieldReg2_fieldWord hrow] at hi
  rw [← hi]
  refine encodes_of_decode (fun rest => ?_) ?_
  · simp [decode, classify_fieldWord hrow, h2]
  · simp [opcode_extract, h2]

/-- Formats V and VI: the instruction is `f` of the two fields and the second halfword. -/
theorem encodes_twoHalfwords {f : Halfword → BitVec 5 → BitVec 5 → Instr} (h2 : op.twoHalfwords = true)
    (hf : ∀ hw1 hw2, op.extract hw1 hw2 = f hw2 (fieldLow5 hw1) (fieldReg2 hw1)) (hw2 : Halfword) :
    Encodes [fieldWord base b a, hw2] (f hw2 a b) := by
  have hi := hf (fieldWord base b a) hw2
  rw [fieldLow5_fieldWord hrow, fieldReg2_fieldWord hrow] at hi
  rw [← hi]
  refine encodes_of_decode (fun rest => ?_) ?_
  · simp [decode, classify_fieldWord hrow, h2]
  · simp [opcode_extract, h2]
end

end Sys2Proof.Machine
end

section
/-! PROOFS. Move and transfer (spec/40_move_transfer.md R140 to R143): each instruction writes one register and goes on to the next
instruction, and MOVHI followed by MOVEA builds any constant. -/

namespace Sys2Proof.Machine

/-! ### The operands of MOVHI and MOVEA -/

theorem toNat_highHalf (h : Halfword) : (highHalf h).toNat = h.toNat * 65536 := by
  have hlt := h.isLt
  simp [highHalf, zext, Nat.shiftLeft_eq]
  omega

theorem add_highHalf (x : Word) (h : Halfword) : x + highHalf h = BitVec.ofNat 32 (x.toNat + h.toNat * 65536) := by
  apply BitVec.eq_of_toNat_eq
  simp [toNat_highHalf]

/-- A word whose low half is 0 is its high half, shifted up. -/
theorem highHalf_extract_of_low_zero {v : Word} (h : v.toNat % 65536 = 0) : highHalf (v.extractLsb' 16 16) = v := by
  have hlt := v.isLt
  apply BitVec.eq_of_toNat_eq
  rw [toNat_highHalf, BitVec.extractLsb'_toNat, Nat.shiftRight_eq_div_pow]
  omega

/-- Sign extension keeps the halfword it extends. -/
theorem toNat_sext_mod (h : Halfword) : (sext h).toNat % 65536 = h.toNat := by
  have hlt := h.isLt
  rw [sext, BitVec.toNat_signExtend, BitVec.toNat_setWidth]
  split <;> omega

/-- R143's recipe: what is left of a constant without its signed low half has a high half alone, which MOVHI writes. -/
theorem highHalf_add_sext_low (k : Word) :
    highHalf ((k - sext (k.extractLsb' 0 16)).extractLsb' 16 16) + sext (k.extractLsb' 0 16) = k := by
  have hlow : (k - sext (k.extractLsb' 0 16)).toNat % 65536 = 0 := by
    have hmod := toNat_sext_mod (k.extractLsb' 0 16)
    rw [BitVec.extractLsb'_toNat] at hmod
    rw [BitVec.toNat_sub]
    omega
  rw [highHalf_extract_of_low_zero hlow, BitVec.sub_add_cancel]

/-- Settles O18: MOVEA reads what MOVHI wrote, so the two operands are added up. -/
theorem movhiThenMoveaBuildAnyConstant : Obligations.MovhiThenMoveaBuildAnyConstant := by
  intro k n s t u hn hmovhi hmovea
  have hsum : u.gpr n = highHalf ((k - sext (k.extractLsb' 0 16)).extractLsb' 16 16) + sext (k.extractLsb' 0 16) := by
    rw [advance_next hmovea, commit_gpr, setGpr_same _ _ hn, advance_next hmovhi, commit_gpr, setGpr_same _ _ hn, gpr_zero,
      BitVec.zero_add]
    rfl
  rw [hsum, highHalf_add_sext_low]

/-! ### The four instructions -/

/-- An instruction that writes one register and goes on to the next instruction completes, and leaves all else. -/
theorem completes_setGpr_advance (s : State) (op : Opcode) (r : RegIdx) (v : Word) :
    Completes ((s.setGpr r v).advance op) s op false (s.defaultNext op) []
      (fun t => WritesRegister s t r v ∧ t.psw = s.psw ∧ KeepsBus s t) := by
  refine ⟨_, advance_eq _ op, ?_, ?_, ?_, ?_, writesRegister_setGpr s r v, ?_, fun x => ?_, ?_, ?_⟩
  all_goals simp [State.defaultNext]

/-- Settles O14: the value written is the one read. -/
theorem movRegisterCopies : Obligations.MovRegisterCopies := fun a b s =>
  ⟨encodes_oneHalfword (op := .movReg) (by decide) b a rfl fun _ => rfl, completes_setGpr_advance s .movReg b (s.gpr a)⟩

/-- Settles O15: sign extension is the word of the signed value, by definition. -/
theorem movImmediateSignExtends : Obligations.MovImmediateSignExtends := fun imm5 b s =>
  ⟨encodes_oneHalfword (op := .movImm5) (by decide) b imm5 rfl fun _ => rfl,
    completes_setGpr_advance s .movImm5 b (sext imm5)⟩

/-- Settles O16: adding the extended immediate is adding its signed value. -/
theorem moveaAddsSignedImmediate : Obligations.MoveaAddsSignedImmediate := by
  intro imm16 a b s
  refine ⟨encodes_twoHalfwords (op := .movea) (by decide) b a rfl (fun _ _ => rfl) imm16, ?_⟩
  rw [← add_sext]
  exact completes_setGpr_advance s .movea b _

/-- Settles O17: the immediate's place is the high half of the addend. -/
theorem movhiAddsShiftedImmediate : Obligations.MovhiAddsShiftedImmediate := by
  intro imm16 a b s
  refine ⟨encodes_twoHalfwords (op := .movhi) (by decide) b a rfl (fun _ _ => rfl) imm16, ?_⟩
  rw [← add_highHalf]
  exact completes_setGpr_advance s .movhi b _

end Sys2Proof.Machine
end

section
/-! PROOFS. Subtract (spec/41_subtract.md R150): the four flags as facts about the two operands, and the comparing branches after SUB
(spec/43_conditional_branch.md section 2). -/

namespace Sys2Proof.Machine

/-! ### The flags of a difference -/

theorem afterSub_z (p : Psw) (lhs rhs : Word) : (p.afterSub lhs rhs).z = decide (lhs = rhs) := sub_beq_zero lhs rhs

theorem afterSub_cy (p : Psw) (lhs rhs : Word) : (p.afterSub lhs rhs).cy = decide (lhs.toNat < rhs.toNat) := rfl

theorem afterSub_carryOrZero (p : Psw) (lhs rhs : Word) :
    ((p.afterSub lhs rhs).cy || (p.afterSub lhs rhs).z) = decide (lhs.toNat ≤ rhs.toNat) := by
  rw [afterSub_cy, afterSub_z, ← Bool.decide_or, decide_eq_decide, BitVec.toNat_eq, Nat.le_iff_lt_or_eq]

/-- The sign of the difference is that of the true difference, but where that overflows. -/
theorem afterSub_less (p : Psw) (lhs rhs : Word) : (p.afterSub lhs rhs).less = decide (lhs.toInt < rhs.toInt) := by
  have hs : (p.afterSub lhs rhs).s = decide ((lhs - rhs).toInt < 0) := bit31_toInt _
  have hov : (p.afterSub lhs rhs).ov =
      decide (lhs.toInt - rhs.toInt < -2 ^ 31 ∨ 2 ^ 31 ≤ lhs.toInt - rhs.toInt) := subOverflow_eq lhs rhs
  rw [less_eq_bne, hs, hov, BitVec.toInt_sub, Int.bmod_def]
  have hl : -2 ^ 31 ≤ lhs.toInt ∧ lhs.toInt < 2 ^ 31 := ⟨lhs.le_toInt, lhs.toInt_lt⟩
  have hr : -2 ^ 31 ≤ rhs.toInt ∧ rhs.toInt < 2 ^ 31 := ⟨rhs.le_toInt, rhs.toInt_lt⟩
  rw [Bool.eq_iff_iff, bne_iff_ne, ne_eq, decide_eq_decide, decide_eq_true_iff]
  omega

/-- After SUB, Z = 1 leaves "less" at 0, so the open parameter is never asked (R150 corner case (f)). -/
theorem afterSub_lessOrEqualWith (disputed : Bool) (p : Psw) (lhs rhs : Word) :
    (p.afterSub lhs rhs).lessOrEqualWith disputed = decide (lhs.toInt ≤ rhs.toInt) := by
  rw [Psw.lessOrEqualWith, afterSub_less, afterSub_z]
  by_cases heq : lhs = rhs
  · simp [heq]
  · have hne : lhs.toInt ≠ rhs.toInt := fun e => heq (BitVec.eq_of_toInt_eq e)
    have hiff : lhs.toInt < rhs.toInt ↔ lhs.toInt ≤ rhs.toInt := by omega
    rw [decide_eq_false heq, decide_eq_decide.2 hiff]
    cases decide (lhs.toInt ≤ rhs.toInt) <;> rfl

/-! ### The instruction -/

theorem sub_next_psw {a b : RegIdx} {s t : State} (h : exec (.sub a b) s = .next t) :
    t.psw = s.psw.afterSub (s.gpr b) (s.gpr a) := by
  rw [advance_next h]
  rfl

theorem setGpr_with_psw (s : State) (i : RegIdx) (v : Word) (p : Psw) :
    { s.setGpr i v with psw := p } = State.setGpr { s with psw := p } i v := by
  unfold State.setGpr
  split <;> rfl

theorem ofInt_toInt_sub (x y : Word) : BitVec.ofInt 32 (x.toInt - y.toInt) = x - y := by
  apply BitVec.eq_of_toInt_eq
  rw [BitVec.toInt_ofInt, BitVec.toInt_sub]

/-- Settles O19: SUB writes a register in the state that has the flags already, and the flags are the rule's formulas by definition. -/
theorem subtractWritesResultAndFlags : Obligations.SubtractWritesResultAndFlags := by
  intro a b s
  refine ⟨encodes_oneHalfword (op := .sub) (by decide) b a rfl fun _ => rfl, ?_⟩
  have hexec : exec (.sub a b) s = (State.setGpr { s with psw := s.psw.afterSub (s.gpr b) (s.gpr a) } b
      (s.gpr b - s.gpr a)).advance .sub := congrArg (State.advance · .sub) (setGpr_with_psw s b _ _)
  rw [hexec, ofInt_toInt_sub]
  exact completes_setGpr_advance _ .sub b _

/-- Settles O20: the OV that SUB leaves is `subOverflow` of the old operands. -/
theorem overflowFlagIsSignedOverflow : Obligations.OverflowFlagIsSignedOverflow := by
  intro a b s t h
  rw [sub_next_psw h]
  exact (Bool.eq_iff_iff.mp (subOverflow_eq _ _)).trans decide_eq_true_iff

/-! ### The comparing branches -/

theorem takenOf_bge (d : BitVec 9) (p : Psw) : takenOf (.bge d) p = !takenOf (.blt d) p := (Bool.not_not _).symm

theorem not_eq_decide_of_iff {b : Bool} {P Q : Prop} [Decidable P] [Decidable Q] (hb : b = decide P) (hPQ : ¬P ↔ Q) :
    (!b) = decide Q := by
  rw [hb, ← decide_not, decide_eq_decide]
  exact hPQ

/-- Settles O21: BZ, BC, BNH, BLT and BLE are the comparisons that the flags come to, and the other five negate them. -/
theorem branchesCompareAfterSubtract : Obligations.BranchesCompareAfterSubtract := by
  intro a b s t d h
  rw [sub_next_psw h]
  have hz := afterSub_z s.psw (s.gpr b) (s.gpr a)
  have hcy := afterSub_cy s.psw (s.gpr b) (s.gpr a)
  have hnh := afterSub_carryOrZero s.psw (s.gpr b) (s.gpr a)
  have hlt := afterSub_less s.psw (s.gpr b) (s.gpr a)
  have hle := afterSub_lessOrEqualWith Config.bleDisputedTaken s.psw (s.gpr b) (s.gpr a)
  rw [lessOrEqualWith_eq] at hle
  exact ⟨hz, not_eq_decide_of_iff hz Iff.rfl, hcy, hnh, not_eq_decide_of_iff hcy Nat.not_lt,
    not_eq_decide_of_iff hnh Nat.not_le, hlt, hle, (takenOf_bge d _).trans (not_eq_decide_of_iff hlt Int.not_lt),
    not_eq_decide_of_iff hle Int.not_le⟩

end Sys2Proof.Machine
end

section
/-! PROOFS. Jump (spec/42_jump.md R155), by the rule of the instructions that end in the commit alone. -/

namespace Sys2Proof.Machine

/-- An instruction that only commits, taken or not and at any next address, completes, and leaves all else. -/
theorem completes_commit (s : State) (op : Opcode) (taken : Bool) (npc : Word) :
    Completes (.next (s.commit op taken npc)) s op taken npc []
      (fun t => KeepsRegisters s t ∧ t.psw = s.psw ∧ KeepsBus s t) := by
  refine ⟨_, rfl, commit_pc s op taken npc, commit_faultMark s op taken npc, ?_, commit_cycleTotal s op taken npc,
    commit_gpr s op taken npc, commit_psw s op taken npc, fun x => ?_, commit_busAnswers s op taken npc,
    commit_freeCount s op taken npc⟩
  · rw [commit_busLog, List.append_nil]
  · rw [commit_mem]

/-- Settles O22: the word is read without its `reg2` field, and JMP commits the register it names as the next address. -/
theorem jumpGoesToTheRegister : Obligations.JumpGoesToTheRegister := fun a ignored s =>
  ⟨encodes_oneHalfword (op := .jmp) (f := fun reg1 _ => .jmp reg1) (by decide) ignored a rfl fun _ => rfl,
    completes_commit s .jmp false (s.gpr a)⟩

end Sys2Proof.Machine
end

section
/-! PROOFS. The condition-code forms (spec/43_conditional_branch.md R160 to R177): the words of format III, the common rule of the sixteen
forms with the predicate of each, and the outcome table. -/

namespace Sys2Proof.Machine

/-! ### The words -/

theorem condWord_eq_packCond (c : BitVec 4) (d : BitVec 9) : condWord c d = packCond c d := (packCond_eq_or c d).symm

theorem fieldDisp9_condWord (c : BitVec 4) (d : BitVec 9) : fieldDisp9 (condWord c d) = d := by
  rw [condWord_eq_packCond, fieldDisp9_packCond]

/-- A format III word is the instruction of its condition's opcode. -/
theorem encodes_extract_condWord (c : BitVec 4) (d : BitVec 9) :
    Encodes [condWord c d] ((condOpcode c).extract (condWord c d) 0#16) := by
  refine encodes_of_decode (fun rest => ?_) ?_
  · simp [decode, condWord_eq_packCond, classify_packCond, twoHalfwords_condOpcode]
  · simp [opcode_extract, twoHalfwords_condOpcode]

/-- Format III: the instruction is `f` of the displacement. -/
theorem encodes_condWord {f : BitVec 9 → Instr} (c : BitVec 4) (d : BitVec 9)
    (hf : ∀ hw1, (condOpcode c).extract hw1 0#16 = f (fieldDisp9 hw1)) : Encodes [condWord c d] (f d) := by
  have h := encodes_extract_condWord c d
  rwa [hf, fieldDisp9_condWord] at h

theorem format_condOpcode : ∀ c : BitVec 4, (condOpcode c).format = .III := by
  decide

/-- The displacement that a format III opcode takes from its word: the field, but for NOP (R174). -/
theorem conditionDisp9_extract {op : Opcode} (h3 : op.format = .III) (hw1 hw2 : Halfword) :
    conditionDisp9 (op.extract hw1 hw2) = some (if op = .nop then 0#9 else fieldDisp9 hw1) := by
  cases op <;> cases h3 <;> rfl

/-! ### The common rule -/

/-- `branch` commits R160's two next addresses, where the instruction is one halfword. -/
theorem branch_eq (s : State) {op : Opcode} (hop : op.twoHalfwords = false) (taken : Bool) (d : BitVec 9) :
    s.branch op taken d = .next (s.commit op taken (if taken then displaced s.pc d else s.pc + 2#32)) := by
  rw [State.branch, State.branchTarget, add_sext, State.defaultNext, hop]
  rfl

theorem branchesOn_conditionForm {i : Instr} {d : BitVec 9} (hd : conditionDisp9 i = some d) (s : State) :
    BranchesOn i d s (takenOf i s.psw) := by
  have hop : i.opcode.twoHalfwords = false := by cases i <;> cases hd <;> rfl
  rw [BranchesOn, exec_conditionForm hd, branch_eq s hop]
  exact completes_commit s i.opcode _ _

/-- NOP is never taken, so no displacement matters (R174). -/
theorem branchesOn_nop (d : BitVec 9) (s : State) : BranchesOn .nop d s false := completes_commit s .nop false (s.pc + 2#32)

/-- Settles O23: NOP ignores the displacement and is never taken, and every other form branches by it. -/
theorem conditionFormsFollowTheCommonRule : Obligations.ConditionFormsFollowTheCommonRule := by
  intro c d s
  by_cases hc : condOpcode c = .nop
  · exact ⟨.nop, encodes_condWord (f := fun _ => .nop) c d fun _ => by rw [hc]; rfl, branchesOn_nop d s⟩
  · refine ⟨_, encodes_extract_condWord c d, branchesOn_conditionForm ?_ s⟩
    rw [conditionDisp9_extract (format_condOpcode c), if_neg hc, fieldDisp9_condWord]

/-! ### The sixteen predicates -/

/-- Settles O24: each form is its row of the condition table, and its predicate is `takenOf` by definition. -/
theorem plainConditionsBranch : Obligations.PlainConditionsBranch := fun d s =>
  ⟨encodes_condWord 0#4 d fun _ => rfl, branchesOn_conditionForm rfl s,
    encodes_condWord 1#4 d fun _ => rfl, branchesOn_conditionForm rfl s,
    encodes_condWord 2#4 d fun _ => rfl, branchesOn_conditionForm rfl s,
    encodes_condWord 3#4 d fun _ => rfl, branchesOn_conditionForm rfl s,
    encodes_condWord 4#4 d fun _ => rfl, branchesOn_conditionForm rfl s,
    encodes_condWord 5#4 d fun _ => rfl, branchesOn_conditionForm rfl s,
    encodes_condWord 6#4 d fun _ => rfl, branchesOn_conditionForm rfl s,
    encodes_condWord 7#4 d fun _ => rfl, branchesOn_conditionForm rfl s⟩

/-- Settles O25: as O24, but NOP has no displacement to branch by. -/
theorem negatedConditionsBranch : Obligations.NegatedConditionsBranch := fun d s =>
  ⟨encodes_condWord 8#4 d fun _ => rfl, branchesOn_conditionForm rfl s,
    encodes_condWord 9#4 d fun _ => rfl, branchesOn_conditionForm rfl s,
    encodes_condWord 10#4 d fun _ => rfl, branchesOn_conditionForm rfl s,
    encodes_condWord 11#4 d fun _ => rfl, branchesOn_conditionForm rfl s,
    encodes_condWord 12#4 d fun _ => rfl, branchesOn_conditionForm rfl s,
    encodes_condWord (f := fun _ => .nop) 13#4 d fun _ => rfl, branchesOn_nop d s,
    encodes_condWord 14#4 d fun _ => rfl, branchesOn_conditionForm rfl s,
    encodes_condWord 15#4 d fun _ => rfl, branchesOn_conditionForm rfl s⟩

/-! ### The outcome table -/

/-- The row of the table: the four flags are the low bits of the packed word (R42). -/
theorem pack_mod_sixteen (p : Psw) :
    p.pack.toNat % 16 = p.z.toNat + 2 * p.s.toNat + 4 * p.ov.toNat + 8 * p.cy.toNat := by
  have hz := p.z.toNat_le
  have hs := p.s.toNat_le
  have hov := p.ov.toNat_le
  have hcy := p.cy.toNat_le
  rw [statusWordPacks p]
  omega

/-- A status word with these four flags. -/
def Psw.ofFlags (z s ov cy : Bool) : Psw := { Psw.reset with z := z, s := s, ov := ov, cy := cy }

/-- No predicate reads anything but the four flags. -/
theorem conditionOutcomes_eq_ofFlags (disputed : Bool) (p : Psw) :
    conditionOutcomes disputed p = conditionOutcomes disputed (Psw.ofFlags p.z p.s p.ov p.cy) := rfl

/-- The sixteen rows of R177. -/
theorem conditionOutcomes_ofFlags : ∀ z s ov cy : Bool,
    conditionOutcomes true (Psw.ofFlags z s ov cy) =
      (List.range 16).map fun k =>
        (conditionTable.getD (z.toNat + 2 * s.toNat + 4 * ov.toNat + 8 * cy.toNat) 0#16).getLsbD (15 - k) := by
  decide

theorem lessOrEqualWith_disputed {p : Psw} (h : p.s ≠ p.ov ∧ p.z = true) (disputed : Bool) :
    p.lessOrEqualWith disputed = disputed := by
  obtain ⟨hs, hz⟩ := h
  simp [lessOrEqualWith_eq, hs, hz]

theorem lessOrEqualWith_undisputed {p : Psw} (h : ¬(p.s ≠ p.ov ∧ p.z = true)) (disputed : Bool) :
    p.lessOrEqualWith disputed = ((p.s != p.ov) || p.z) := by
  rw [lessOrEqualWith_eq, if_neg]
  simpa using h

/-- Settles O26: the table is read by the four flags, and the parameter is asked in the disputed state alone. -/
theorem outcomeTableOfTheConditions : Obligations.OutcomeTableOfTheConditions := by
  intro p
  constructor
  · rw [pack_mod_sixteen, conditionOutcomes_eq_ofFlags]
    exact conditionOutcomes_ofFlags _ _ _ _
  · split
    case isTrue h => simp [conditionOutcomes, lessOrEqualWith_disputed h]
    case isFalse h => simp [conditionOutcomes, lessOrEqualWith_undisputed h]

end Sys2Proof.Machine
end

section
/-! PROOFS. System instructions (spec/44_system.md R190 to R193): LDSR with the status word's selector, CLI and SEI write the status
word alone, and LDSR with any other selector leaves all to the fault state. -/

namespace Sys2Proof.Machine

/-! ### An instruction that faults -/

theorem exec_ldsr_of_ne (r : RegIdx) {k : BitVec 5} (hk : k ≠ Config.pswSysregId) (s : State) :
    exec (.ldsr r k) s = .fault (.unimplementedSystemRegister s.pc k) := if_neg hk

theorem afterStep_of_exec_fault {s s1 : State} {i : Instr} {f : Fault} (hm : s.faultMark = none)
    (hf : s.fetch = .ready i s1) (he : exec i s1 = .fault f) : s.afterStep = s1.enterFault f := by
  simp [State.afterStep, hm, hf, he]

/-- An instruction that faults leaves what its fetch left: the core, memory and cycle total of before the step, and a log of the
fetches alone. -/
theorem exec_fault_afterStep_frame {s s1 : State} {i : Instr} {f : Fault} (hm : s.faultMark = none)
    (hf : s.fetch = .ready i s1) (he : exec i s1 = .fault f) :
    SameCore s s.afterStep ∧ s.afterStep.mem = s.mem ∧ s.afterStep.busLog = fetchEvents i s.pc ∧
      s.afterStep.cycleTotal = s.cycleTotal := by
  obtain ⟨hregs, hpc, hpsw, -, hmem, hcycles⟩ := fetch_ready_frame hf
  have hlog := fetch_ready_busLog hf
  rw [afterStep_of_exec_fault hm hf he]
  exact ⟨⟨gpr_congr hregs, hpc, hpsw⟩, hmem, hlog, hcycles⟩

theorem encodes_ldsr (r : RegIdx) (k : BitVec 5) : Encodes [fieldWord 0x7000#16 r k] (.ldsr r k) :=
  encodes_oneHalfword (op := .ldsr) (f := fun regID reg2 => .ldsr reg2 regID) (by decide) r k rfl fun _ => rfl

/-- Settles O30: the selector is not the status word's, so the step stops where its fetch left it. -/
theorem ldsrFaultsOnOtherSelectors : Obligations.LdsrFaultsOnOtherSelectors := by
  intro s s1 r k hk
  refine ⟨encodes_ldsr r k, exec_ldsr_of_ne r hk s, fun hm hf => ?_⟩
  obtain ⟨-, hpc, -⟩ := fetch_ready_frame hf
  have he : exec (.ldsr r k) s1 = .fault (.unimplementedSystemRegister s.pc k) := hpc ▸ exec_ldsr_of_ne r hk s1
  exact ⟨(step_of_fetch_ready hm hf).trans he, exec_fault_afterStep_frame hm hf he⟩

/-! ### Instructions that write the status word alone -/

theorem Completes.imp {o : Host.Outcome State Fault Refusal} {s : State} {op : Opcode} {taken : Bool} {npc : Word}
    {events : List BusEvent} {P Q : State → Prop} (h : Completes o s op taken npc events P) (hPQ : ∀ t, P t → Q t) :
    Completes o s op taken npc events Q := by
  obtain ⟨t, ho, hpc, hmark, hlog, hcycles, hP⟩ := h
  exact ⟨t, ho, hpc, hmark, hlog, hcycles, hPQ t hP⟩

/-- An instruction that writes the status word and goes on to the next instruction completes, and leaves all else. -/
theorem completes_setPsw_advance (s : State) (p : Psw) (op : Opcode) :
    Completes (State.advance { s with psw := p } op) s op false (s.defaultNext op) []
      (fun t => t.psw = p ∧ KeepsRegisters s t ∧ KeepsBus s t) :=
  (completes_commit { s with psw := p } op false (s.defaultNext op)).imp fun _ ⟨hregs, hpsw, hbus⟩ => ⟨hpsw, hregs, hbus⟩

/-- Settles O29: LDSR writes the unpacked register, and packing that masks it. -/
theorem ldsrWritesTheStatusWord : Obligations.LdsrWritesTheStatusWord := fun r s =>
  ⟨encodes_ldsr r 5#5, (completes_setPsw_advance s (Psw.unpack (s.gpr r)) .ldsr).imp fun _ ⟨hpsw, hkeep⟩ =>
    ⟨hpsw, (congrArg Psw.pack hpsw).trans (pack_unpack _), hkeep⟩⟩

/-- Bits 9 to 0 of a word are the two operand fields together (R102). -/
theorem or_setWidth_eq_fieldWord (base : Halfword) (low10 : BitVec 10) :
    base ||| low10.setWidth 16 = fieldWord base (low10.extractLsb' 5 5) (low10.extractLsb' 0 5) := by
  have hsplit : low10.setWidth 16 = (low10.extractLsb' 5 5).setWidth 16 <<< 5 ||| (low10.extractLsb' 0 5).setWidth 16 := by
    apply BitVec.eq_of_getLsbD_eq
    intro i hi
    interval_cases i <;> simp
  rw [fieldWord, BitVec.or_assoc, hsplit]

/-- A row of formats I and II whose instruction ignores both fields. -/
theorem encodes_ignoring_fields {op : Opcode} {base : Halfword} {i : Instr} (hrow : (op, base, 0xFC00#16) ∈ opcodeTable)
    (h2 : op.twoHalfwords = false) (hi : ∀ hw1, op.extract hw1 0#16 = i) (ignored : BitVec 10) :
    Encodes [base ||| ignored.setWidth 16] i := by
  rw [or_setWidth_eq_fieldWord]
  exact encodes_oneHalfword (f := fun _ _ => i) hrow _ _ h2 hi

/-- Settles O31: the words are read without their low ten bits, and each instruction writes the status word with ID alone changed. -/
theorem cliAndSeiWriteIdAlone : Obligations.CliAndSeiWriteIdAlone := fun s ignored =>
  ⟨encodes_ignoring_fields (op := .cli) (by decide) rfl (fun _ => rfl) ignored,
    encodes_ignoring_fields (op := .sei) (by decide) rfl (fun _ => rfl) ignored,
    completes_setPsw_advance s { s.psw with id := false } .cli, completes_setPsw_advance s { s.psw with id := true } .sei⟩

end Sys2Proof.Machine
end

section
/-! PROOFS. Loads (spec/45_load.md R200 to R206): each load's word, what it does, and that IN is the load of its width but for the
cycle report. -/

namespace Sys2Proof.Machine

/-- Settles O34: each word is a row of the opcode table with two operand fields, and every load follows the common rule R200. -/
theorem loadsWriteTheExtendedAnswer : Obligations.LoadsWriteTheExtendedAnswer := fun d r1 r2 s =>
  ⟨effAddr_eq_displaced s r1 d,
    encodes_twoHalfwords (op := .ldB) (by decide) r2 r1 rfl (fun _ _ => rfl) d, loadsValue_of_memAccess (w := .byte) rfl s,
    encodes_twoHalfwords (op := .ldH) (by decide) r2 r1 rfl (fun _ _ => rfl) d, loadsValue_of_memAccess (w := .half) rfl s,
    encodes_twoHalfwords (op := .ldW) (by decide) r2 r1 rfl (fun _ _ => rfl) d, loadsValue_of_memAccess (w := .word) rfl s,
    encodes_twoHalfwords (op := .inB) (by decide) r2 r1 rfl (fun _ _ => rfl) d, loadsValue_of_memAccess (w := .byte) rfl s,
    encodes_twoHalfwords (op := .inH) (by decide) r2 r1 rfl (fun _ _ => rfl) d, loadsValue_of_memAccess (w := .half) rfl s,
    encodes_twoHalfwords (op := .inW) (by decide) r2 r1 rfl (fun _ _ => rfl) d, loadsValue_of_memAccess (w := .word) rfl s⟩

/-! ### Instructions with the same data access -/

/-- Two opcodes of one length end an instruction alike, but for the cycle report. -/
theorem sameButCycles_advance (s : State) {op op' : Opcode} (h : op.twoHalfwords = op'.twoHalfwords) :
    SameButCycles (s.advance op) (s.advance op') := by
  have hnext : s.defaultNext op = s.defaultNext op' := by rw [State.defaultNext, State.defaultNext, h]
  rw [advance_eq, advance_eq, hnext]
  simp [SameButCycles, State.commit]

/-- The data access says all that a load or a store does, but for the cycle report. -/
theorem sameButCycles_of_memAccess {i i' : Instr} {m : MemAccess} (hi : memAccess i = some m) (hi' : memAccess i' = some m)
    (s : State) : SameButCycles (exec i s) (exec i' s) := by
  have hlen : i.opcode.twoHalfwords = i'.opcode.twoHalfwords :=
    (twoHalfwords_of_memAccess hi).trans (twoHalfwords_of_memAccess hi').symm
  cases m with
  | load w d r1 r2 =>
    rw [exec_load hi, exec_load hi']
    exact sameButCycles_advance _ hlen
  | store w r2 d r1 =>
    rw [exec_store hi, exec_store hi']
    exact sameButCycles_advance _ hlen

/-- Settles O37: IN and the load of its width make the same data access. -/
theorem inputsAreAliasesOfLoads : Obligations.InputsAreAliasesOfLoads := fun _ _ _ s =>
  ⟨sameButCycles_of_memAccess rfl rfl s, sameButCycles_of_memAccess rfl rfl s, sameButCycles_of_memAccess rfl rfl s⟩

end Sys2Proof.Machine
end

section
/-! PROOFS. Stores (spec/46_store.md R215 to R221): each store's word, what it does, and that OUT is the store of its width but for the
cycle report. -/

namespace Sys2Proof.Machine

/-- Every store completes with one bus write and leaves the core's registers and flags (R215). -/
theorem storesValue_of_memAccess {i : Instr} {w : Width} {d : Halfword} {r1 r2 : RegIdx}
    (h : memAccess i = some (.store w r2 d r1)) (s : State) :
    StoresValue i s (w.writeEvent (s.effAddr r1 d) (s.gpr r2)) := by
  refine ⟨_, exec_store h s, ?_, ?_, ?_, ?_, fun _ => ?_, ?_, ?_⟩
  all_goals simp [State.defaultNext, twoHalfwords_of_memAccess h]

theorem writeEvent_byte (a v : Word) : Width.byte.writeEvent a v = .writeByte a (v.extractLsb' 0 8) :=
  congrArg (BusEvent.writeByte a) (BitVec.setWidth_eq_extractLsb' (by decide))

theorem writeEvent_half (a v : Word) : Width.half.writeEvent a v = .writeHalfword a (v.extractLsb' 0 16) :=
  congrArg (BusEvent.writeHalfword a) (BitVec.setWidth_eq_extractLsb' (by decide))

/-- A byte store writes the low 8 bits of the data register (R216, R219). -/
theorem storesValue_byte {i : Instr} {d : Halfword} {r1 r2 : RegIdx} (h : memAccess i = some (.store .byte r2 d r1))
    (s : State) : StoresValue i s (.writeByte (s.effAddr r1 d) ((s.gpr r2).extractLsb' 0 8)) :=
  writeEvent_byte _ _ ▸ storesValue_of_memAccess h s

/-- A halfword store writes the low 16 bits of the data register (R217, R220). -/
theorem storesValue_half {i : Instr} {d : Halfword} {r1 r2 : RegIdx} (h : memAccess i = some (.store .half r2 d r1))
    (s : State) : StoresValue i s (.writeHalfword (s.effAddr r1 d) ((s.gpr r2).extractLsb' 0 16)) :=
  writeEvent_half _ _ ▸ storesValue_of_memAccess h s

/-- A row of format VI whose instruction takes its operands in the order of the stores, data register first (R105, R215). -/
theorem encodes_store {op : Opcode} {base : Halfword} {f : RegIdx → Halfword → RegIdx → Instr}
    (hrow : (op, base, 0xFC00#16) ∈ opcodeTable) (h2 : op.twoHalfwords = true)
    (hf : ∀ hw1 hw2, op.extract hw1 hw2 = f (fieldReg2 hw1) hw2 (fieldLow5 hw1)) (r2 : RegIdx) (d : Halfword) (r1 : RegIdx) :
    Encodes [fieldWord base r2 r1, d] (f r2 d r1) :=
  encodes_twoHalfwords (f := fun disp16 reg1 reg2 => f reg2 disp16 reg1) hrow r2 r1 h2 hf d

/-- Settles O38: each word is a row of the opcode table with two operand fields, and every store follows the common rule R215. -/
theorem storesIssueOneBusWrite : Obligations.StoresIssueOneBusWrite := fun r2 d r1 s =>
  ⟨effAddr_eq_displaced s r1 d,
    encodes_store (op := .stB) (by decide) rfl (fun _ _ => rfl) r2 d r1, storesValue_byte rfl s,
    encodes_store (op := .stH) (by decide) rfl (fun _ _ => rfl) r2 d r1, storesValue_half rfl s,
    encodes_store (op := .stW) (by decide) rfl (fun _ _ => rfl) r2 d r1, storesValue_of_memAccess (w := .word) rfl s,
    encodes_store (op := .outB) (by decide) rfl (fun _ _ => rfl) r2 d r1, storesValue_byte rfl s,
    encodes_store (op := .outH) (by decide) rfl (fun _ _ => rfl) r2 d r1, storesValue_half rfl s,
    encodes_store (op := .outW) (by decide) rfl (fun _ _ => rfl) r2 d r1, storesValue_of_memAccess (w := .word) rfl s⟩

/-- Settles O41: OUT and the store of its width make the same data access. -/
theorem outputsAreAliasesOfStores : Obligations.OutputsAreAliasesOfStores := fun _ _ _ s =>
  ⟨sameButCycles_of_memAccess rfl rfl s, sameButCycles_of_memAccess rfl rfl s, sameButCycles_of_memAccess rfl rfl s⟩

end Sys2Proof.Machine
end

section
/-! PROOFS. The three ways in which the core stops (spec/60_exceptions.md R230), and what a stop leaves (R232, R233). -/

namespace Sys2Proof.Machine

/-! ### The causes of the stops -/

theorem bit0_eq_true_iff {n : Nat} (x : BitVec n) : x.getLsbD 0 = true ↔ x.toNat % 2 = 1 := by
  rw [bit0_eq_decide, decide_eq_true_iff]

theorem bit0_eq_false_iff {n : Nat} (x : BitVec n) : x.getLsbD 0 = false ↔ x.toNat % 2 = 0 := by
  rw [bit0_eq_decide, decide_eq_false_iff_not]
  exact Nat.mod_two_ne_one

/-- While the mark is set there is no step (R233). -/
theorem step_of_faultMark {s : State} {f : Fault} (hm : s.faultMark = some f) : step s = .refused (.faultMarkSet f) := by
  simp [step, hm]

section
variable (s : State) (f : Fault)

/-- The fetch stops for an odd `pc` or an unrecognized first halfword alone. -/
theorem fetch_stop_iff : (∃ s1, s.fetch = .stop f s1) ↔
    (s.pc.toNat % 2 = 1 ∧ f = .misalignedPc s.pc) ∨
      (s.pc.toNat % 2 = 0 ∧ classify (s.fetchAnswer s.pc) = none ∧
        f = .unrecognizedOpcode s.pc (s.fetchAnswer s.pc)) := by
  rw [← bit0_eq_true_iff, ← bit0_eq_false_iff]
  constructor
  · rintro ⟨s1, hf⟩
    obtain ⟨hp, hfault, -⟩ | ⟨hp, hc, hfault, -⟩ := fetch_stop hf
    · exact .inl ⟨hp, hfault⟩
    · exact .inr ⟨hp, hc, hfault⟩
  · rintro (⟨hp, rfl⟩ | ⟨hp, hc, rfl⟩)
    · exact ⟨_, fetch_odd hp⟩
    · exact ⟨_, fetch_unrecognized hp hc⟩

/-- The only instruction that faults is LDSR with a selector that is not the status word's. -/
theorem fetched_exec_fault_iff : (∃ i s1, s.fetch = .ready i s1 ∧ exec i s1 = .fault f) ↔
    s.pc.toNat % 2 = 0 ∧ classify (s.fetchAnswer s.pc) = some .ldsr ∧ (s.fetchAnswer s.pc).extractLsb' 0 5 ≠ 5#5 ∧
      f = .unimplementedSystemRegister s.pc ((s.fetchAnswer s.pc).extractLsb' 0 5) := by
  rw [← bit0_eq_false_iff]
  constructor
  · rintro ⟨i, s1, hf, he⟩
    obtain ⟨r, k, rfl, hk, rfl⟩ := exec_fault he
    obtain ⟨hp, hc, ⟨h2, -⟩ | ⟨-, hi, rfl⟩⟩ := fetch_ready hf
    · cases h2
    · obtain ⟨-, hsel⟩ := (Instr.ldsr.injEq ..).mp hi
      subst hsel
      exact ⟨hp, hc, hk, rfl⟩
  · rintro ⟨hp, hc, hk, rfl⟩
    exact ⟨_, _, fetch_oneHalfword hp hc rfl, exec_ldsr_of_ne _ hk _⟩

theorem step_fault_iff : step s = .fault f ↔ s.faultMark = none ∧
    ((∃ s1, s.fetch = .stop f s1) ∨ ∃ i s1, s.fetch = .ready i s1 ∧ exec i s1 = .fault f) := by
  refine ⟨step_fault, ?_⟩
  rintro ⟨hm, ⟨s1, hf⟩ | ⟨i, s1, hf, he⟩⟩
  · exact step_of_fetch_stop hm hf
  · exact (step_of_fetch_ready hm hf).trans he

theorem step_refused_iff (r : Refusal) : step s = .refused r ↔ ∃ f, s.faultMark = some f ∧ r = .faultMarkSet f := by
  constructor
  · intro h
    cases hm : s.faultMark with
    | some f =>
      rw [step_of_faultMark hm] at h
      exact ⟨f, rfl, ((Host.Outcome.refused.injEq ..).mp h).symm⟩
    | none =>
      cases hf : s.fetch with
      | stop f s1 =>
        rw [step_of_fetch_stop hm hf] at h
        cases h
      | ready i s1 =>
        rw [step_of_fetch_ready hm hf] at h
        exact absurd h (exec_not_refused i s1 r)
  · rintro ⟨f, hm, rfl⟩
    exact step_of_faultMark hm
end

/-- Settles O50: a fault comes from the fetch or from the instruction, a refusal from the mark, and there is no fourth outcome. -/
theorem theCoreStopsInExactlyThreeWays : Obligations.TheCoreStopsInExactlyThreeWays := by
  refine ⟨fun s f => ?_, step_refused_iff, fun s => ?_⟩
  · rw [step_fault_iff, fetch_stop_iff, fetched_exec_fault_iff, or_assoc]
  · cases h : step s with
    | next t => exact .inl ⟨t, rfl⟩
    | fault f => exact .inr (.inl ⟨f, rfl⟩)
    | refused r =>
      obtain ⟨f, hm, -⟩ := (step_refused_iff s r).1 h
      exact .inr (.inr ⟨f, hm⟩)

/-! ### What a fault leaves -/

/-- A fetch that stops leaves the core and memory as they were. -/
theorem fetch_stop_frame {s s1 : State} {f : Fault} (h : s.fetch = .stop f s1) :
    s1.regs = s.regs ∧ s1.pc = s.pc ∧ s1.psw = s.psw ∧ s1.mem = s.mem ∧ s1.cycleTotal = s.cycleTotal := by
  obtain ⟨-, -, rfl⟩ | ⟨-, -, -, rfl⟩ := fetch_stop h <;> exact ⟨rfl, rfl, rfl, rfl, rfl⟩

/-- A faulting step enters the fault state where its fetch left off, and the fetch changes nothing but the bus's log and answers. -/
theorem afterStep_of_step_fault {s : State} {f : Fault} (h : step s = .fault f) :
    ∃ s1 : State, s.afterStep = s1.enterFault f ∧
      s1.regs = s.regs ∧ s1.pc = s.pc ∧ s1.psw = s.psw ∧ s1.mem = s.mem ∧ s1.cycleTotal = s.cycleTotal := by
  obtain ⟨hm, ⟨s1, hf⟩ | ⟨i, s1, hf, he⟩⟩ := step_fault h
  · exact ⟨s1, afterStep_of_fetch_stop hm hf, fetch_stop_frame hf⟩
  · obtain ⟨hregs, hpc, hpsw, -, hmem, hcycles⟩ := fetch_ready_frame hf
    exact ⟨s1, afterStep_of_exec_fault hm hf he, hregs, hpc, hpsw, hmem, hcycles⟩

theorem afterStep_of_faultMark {s : State} {f : Fault} (hm : s.faultMark = some f) : s.afterStep = s := by
  simp [State.afterStep, hm]

/-- Reset alone clears the mark (R233, R239). -/
theorem hostCall_faultMark (op : HostOp) {s : State} {f : Fault} (hm : s.faultMark = some f) :
    (hostCall op s).1.faultMark = if op = .reset then none else some f := by
  cases op with
  | reset => rfl
  | step => exact (congrArg State.faultMark (afterStep_of_faultMark hm)).trans hm
  | regPc | regGpr | regPsw | setRegPsw => exact hm

/-- Settles O51: entering the fault state sets the mark alone, and with the mark set a step leaves the state as it is. -/
theorem faultKeepsTheCoreAndStopsIt : Obligations.FaultKeepsTheCoreAndStopsIt := by
  refine ⟨fun s f h => ?_, fun op s f hm => ⟨step_of_faultMark hm, hostCall_faultMark op hm⟩⟩
  obtain ⟨s1, hs, hregs, hpc, hpsw, hmem, hcycles⟩ := afterStep_of_step_fault h
  rw [hs]
  exact ⟨⟨gpr_congr hregs, hpc, hpsw⟩, hmem, hcycles, rfl⟩

end Sys2Proof.Machine
end

section
/-! PROOFS. The control bits of the status word (spec/60_exceptions.md R236): every operation of a step takes states that differ in
them alone to such states, so no run tells them apart. -/

namespace Sys2Proof.Machine

namespace AgreeButControlBits

section
variable {s s' : State} (h : AgreeButControlBits s s')
include h

/-! ### What two such states answer alike -/

theorem regs_eq : s'.regs = s.regs := by
  rw [h.1]

theorem pc_eq : s'.pc = s.pc := by
  rw [h.1]

theorem faultMark_eq : s'.faultMark = s.faultMark := by
  rw [h.1]

theorem gpr_eq (r : RegIdx) : s'.gpr r = s.gpr r := gpr_congr h.regs_eq r

theorem effAddr_eq (r : RegIdx) (d : Halfword) : s'.effAddr r d = s.effAddr r d := congrArg (· + sext d) (h.gpr_eq r)

theorem readAnswer_eq (w : Width) (a : Word) : s'.readAnswer w a = s.readAnswer w a := by
  rw [h.1]
  rfl

/-- Every condition is a function of Z, S, OV and CY (R161 to R176). -/
theorem takenOf_eq (i : Instr) : takenOf i s'.psw = takenOf i s.psw := by
  obtain ⟨-, hz, hs, hov, hcy⟩ := h
  unfold takenOf
  rw [hz, hs, hov, hcy]

/-! ### The operations on the state keep the agreement -/

theorem beginStep : AgreeButControlBits s.beginStep s'.beginStep := ⟨congrArg State.beginStep h.1, h.2⟩

theorem afterRead (w : Width) (a : Word) : AgreeButControlBits (s.afterRead w a) (s'.afterRead w a) :=
  ⟨congrArg (State.afterRead · w a) h.1, h.2⟩

theorem afterWrite (w : Width) (a v : Word) : AgreeButControlBits (s.afterWrite w a v) (s'.afterWrite w a v) :=
  ⟨congrArg (State.afterWrite · w a v) h.1, h.2⟩

theorem commit (op : Opcode) (taken : Bool) (npc : Word) :
    AgreeButControlBits (s.commit op taken npc) (s'.commit op taken npc) :=
  ⟨congrArg (State.commit · op taken npc) h.1, h.2⟩

theorem setGpr (r : RegIdx) (v : Word) : AgreeButControlBits (s.setGpr r v) (s'.setGpr r v) := by
  obtain ⟨hs', hflags⟩ := h
  refine ⟨?_, by simpa using hflags⟩
  rw [setGpr_psw, setGpr_with_psw, ← hs']

/-- Two status words with the same Z, S, OV and CY may be written. -/
theorem setPsw {p p' : Psw} (hp : p'.z = p.z ∧ p'.s = p.s ∧ p'.ov = p.ov ∧ p'.cy = p.cy) :
    AgreeButControlBits { s with psw := p } { s' with psw := p' } :=
  ⟨congrArg (fun u : State => { u with psw := p' }) h.1, hp⟩

theorem setId (b : Bool) :
    AgreeButControlBits { s with psw := { s.psw with id := b } } { s' with psw := { s'.psw with id := b } } :=
  h.setPsw h.2

/-! ### The common rules end alike -/

theorem outcomes_advance (op : Opcode) : OutcomesAgree (s.advance op) (s'.advance op) := by
  rw [State.advance, State.advance, State.defaultNext, State.defaultNext, h.pc_eq]
  exact h.commit op false _

theorem outcomes_branch (op : Opcode) (taken : Bool) (d : BitVec 9) :
    OutcomesAgree (s.branch op taken d) (s'.branch op taken d) := by
  rw [State.branch, State.branch, State.branchTarget, State.branchTarget, State.defaultNext, State.defaultNext, h.pc_eq]
  exact h.commit op taken _

theorem outcomes_load (op : Opcode) (w : Width) (d : Halfword) (r1 r2 : RegIdx) :
    OutcomesAgree (s.load op w d r1 r2) (s'.load op w d r1 r2) := by
  rw [State.load, State.load, h.effAddr_eq, h.readAnswer_eq]
  exact ((h.afterRead w _).setGpr r2 _).outcomes_advance op

theorem outcomes_store (op : Opcode) (w : Width) (r2 : RegIdx) (d : Halfword) (r1 : RegIdx) :
    OutcomesAgree (s.store op w r2 d r1) (s'.store op w r2 d r1) := by
  rw [State.store, State.store, h.effAddr_eq, h.gpr_eq]
  exact (h.afterWrite w _ _).outcomes_advance op

theorem outcomes_setGpr_advance (r : RegIdx) {v v' : Word} (hv : v' = v) (op : Opcode) :
    OutcomesAgree ((s.setGpr r v).advance op) ((s'.setGpr r v').advance op) := by
  subst hv
  exact (h.setGpr r _).outcomes_advance op

/-! ### Execution, fetch and step -/

theorem outcomes_sub (a b : RegIdx) : OutcomesAgree (execSub a b s) (execSub a b s') := by
  rw [execSub, execSub, h.gpr_eq, h.gpr_eq]
  exact ((h.setGpr b _).setPsw ⟨rfl, rfl, rfl, rfl⟩).outcomes_advance .sub

theorem outcomes_ldsr (r : RegIdx) (k : BitVec 5) : OutcomesAgree (execLdsr r k s) (execLdsr r k s') := by
  unfold execLdsr
  split
  · refine (h.setPsw ?_).outcomes_advance .ldsr
    rw [h.gpr_eq]
    exact ⟨rfl, rfl, rfl, rfl⟩
  · exact congrArg (Fault.unimplementedSystemRegister · k) h.pc_eq.symm

/-- No instruction tells two such states apart: the condition-code forms read the four flags, and no other reads the status word. -/
theorem outcomes_exec (i : Instr) : OutcomesAgree (exec i s) (exec i s') := by
  cases i with
  | movReg a b => exact h.outcomes_setGpr_advance b (h.gpr_eq a) .movReg
  | movImm5 imm5 b => exact h.outcomes_setGpr_advance b rfl .movImm5
  | movea imm16 a b => exact h.outcomes_setGpr_advance b (congrArg (· + sext imm16) (h.gpr_eq a)) .movea
  | movhi imm16 a b => exact h.outcomes_setGpr_advance b (congrArg (· + highHalf imm16) (h.gpr_eq a)) .movhi
  | sub a b => exact h.outcomes_sub a b
  | ldsr r k => exact h.outcomes_ldsr r k
  | cli => exact (h.setId false).outcomes_advance .cli
  | sei => exact (h.setId true).outcomes_advance .sei
  | jmp a =>
    rw [exec, exec, execJmp, execJmp, h.gpr_eq]
    exact h.commit .jmp false _
  | ldB | ldH | ldW | inB | inH | inW => exact h.outcomes_load _ _ _ _ _
  | stB | stH | stW | outB | outH | outW => exact h.outcomes_store _ _ _ _ _
  | nop | bv | bc | bz | bnh | bn | br | blt | ble | bnv | bnc | bnz | bh | bp | bge | bgt =>
    rw [exec_conditionForm rfl, exec_conditionForm rfl, h.takenOf_eq]
    exact h.outcomes_branch _ _ _

/-- The fetch comes to the same: a stop with the same fault, or the same instruction in states that agree. It reads no status word, so
what decides the one fetch decides the other. -/
theorem fetch_agree :
    (∃ f s1 s1', s.fetch = .stop f s1 ∧ s'.fetch = .stop f s1') ∨
      ∃ i s1 s1', s.fetch = .ready i s1 ∧ s'.fetch = .ready i s1' ∧ AgreeButControlBits s1 s1' := by
  have hs' := h.1
  generalize s'.psw = p at hs'
  subst hs'
  cases hp : s.pc.getLsbD 0 with
  | true => exact .inl ⟨_, _, _, fetch_odd hp, fetch_odd (s := { s with psw := p }) hp⟩
  | false =>
    cases hc : classify (s.fetchAnswer s.pc) with
    | none => exact .inl ⟨_, _, _, fetch_unrecognized hp hc, fetch_unrecognized (s := { s with psw := p }) hp hc⟩
    | some op =>
      have hread := h.beginStep.afterRead .half s.pc
      cases h2 : op.twoHalfwords with
      | false =>
        exact .inr ⟨_, _, _, fetch_oneHalfword hp hc h2, fetch_oneHalfword (s := { s with psw := p }) hp hc h2, hread⟩
      | true =>
        exact .inr ⟨_, _, _, fetch_twoHalfwords hp hc h2, fetch_twoHalfwords (s := { s with psw := p }) hp hc h2,
          hread.afterRead .half (s.pc + 2#32)⟩

/-- No step tells two such states apart. -/
theorem outcomes_step : OutcomesAgree (step s) (step s') := by
  cases hm : s.faultMark with
  | some f =>
    rw [step_of_faultMark hm, step_of_faultMark (h.faultMark_eq.trans hm)]
    rfl
  | none =>
    have hm' := h.faultMark_eq.trans hm
    obtain ⟨f, s1, s1', hf, hf'⟩ | ⟨i, s1, s1', hf, hf', h1⟩ := h.fetch_agree
    · rw [step_of_fetch_stop hm hf, step_of_fetch_stop hm' hf']
      rfl
    · rw [step_of_fetch_ready hm hf, step_of_fetch_ready hm' hf']
      exact h1.outcomes_exec i
end

end AgreeButControlBits

/-! ### Runs -/

theorem outcomesAgree_cases {o o' : Host.Outcome State Fault Refusal} (h : OutcomesAgree o o') :
    (∃ t t', o = .next t ∧ o' = .next t' ∧ AgreeButControlBits t t') ∨
      (∃ f, o = .fault f ∧ o' = .fault f) ∨ ∃ r, o = .refused r ∧ o' = .refused r := by
  cases o with
  | next t =>
    cases o' with
    | next t' => exact .inl ⟨t, t', rfl, rfl, h⟩
    | fault | refused => exact False.elim h
  | fault f =>
    cases o' with
    | fault => exact .inr (.inl ⟨f, rfl, congrArg Host.Outcome.fault h.symm⟩)
    | next | refused => exact False.elim h
  | refused r =>
    cases o' with
    | refused => exact .inr (.inr ⟨r, rfl, congrArg Host.Outcome.refused h.symm⟩)
    | next | fault => exact False.elim h

section
variable {M : Host.Core} {s : M.State} (k : Nat)

theorem run_succ_of_step_next {t : M.State} (h : M.step s = .next t) : M.run (k + 1) s = M.run k t := by
  rw [Host.Core.run, h]

theorem run_succ_of_step_fault {f : M.Fault} (h : M.step s = .fault f) : M.run (k + 1) s = .fault f := by
  rw [Host.Core.run, h]

theorem run_succ_of_step_refused {r : M.Refusal} (h : M.step s = .refused r) : M.run (k + 1) s = .refused r := by
  rw [Host.Core.run, h]
end

/-- Settles O58, by induction on the length: the first steps agree, and what is left of the runs starts in states that agree. -/
theorem controlBitsNeverAffectARun : Obligations.ControlBitsNeverAffectARun := by
  intro k
  induction k with
  | zero => exact fun s s' h => h
  | succ k ih =>
    intro s s' h
    obtain ⟨t, t', hs, hs', ht⟩ | ⟨f, hs, hs'⟩ | ⟨r, hs, hs'⟩ := outcomesAgree_cases h.outcomes_step
    · rw [run_succ_of_step_next (M := core) k hs, run_succ_of_step_next (M := core) k hs']
      exact ih t t' ht
    · rw [run_succ_of_step_fault (M := core) k hs, run_succ_of_step_fault (M := core) k hs']
      rfl
    · rw [run_succ_of_step_refused (M := core) k hs, run_succ_of_step_refused (M := core) k hs']
      rfl

end Sys2Proof.Machine
end

section
/-! PROOFS. The encoder against the decoder (spec/30_encoding.md R100 to R113): decoding what `encode` gives, as halfwords and as the
bytes of the reference bus, gives the instruction back. -/

namespace Sys2Proof

open Sys2Proof.Machine

/-! ### Every field of an instruction fits -/

@[simp] theorem wellFormed_index (r : BitVec 5) : WellFormed.index r.toNat = true := decide_eq_true r.isLt

@[simp] theorem wellFormed_imm5 (v : BitVec 5) : WellFormed.imm5 v.toInt = true := by
  have hlo := v.le_toInt
  have hhi := v.toInt_lt
  exact decide_eq_true (by omega)

@[simp] theorem wellFormed_disp9 (d : BitVec 9) : WellFormed.disp9 d.toInt = true := by
  have hlo := d.le_toInt
  have hhi := d.toInt_lt
  exact decide_eq_true (by omega)

@[simp] theorem wellFormed_half (h : Halfword) : WellFormed.half h.toInt = true := by
  have hlo := h.le_toInt
  have hhi := h.toInt_lt
  exact decide_eq_true (by omega)

@[simp] theorem wellFormed_half_raw (h : Halfword) : WellFormed.half h.toNat = true := by
  have hhi := h.isLt
  exact decide_eq_true (by omega)

/-- A decoded instruction is well-formed by construction (R115). -/
theorem Instr.wellFormed_eq_true (i : Instr) : i.wellFormed = true := by
  cases i <;> simp [Instr.wellFormed]

/-! ### What `encode` gives -/

theorem classify_packFields_of_opc6Opcode {o : BitVec 6} {op : Opcode} (ho : opc6Opcode o = some op) (b a : BitVec 5) :
    classify (packFields o b a) = some op := classify_eq_some_iff.2 (.inr ⟨o, b, a, rfl, ho⟩)

/-- The encoding of an instruction: a first halfword that is classified as its opcode, then a second one where the format has it, and
the fields extracted from them are the operands. -/
theorem encode_classify_extract (i : Instr) : ∃ hw1 hw2,
    encode i = hw1 :: (if i.opcode.twoHalfwords then [hw2] else []) ∧ classify hw1 = some i.opcode ∧
      i.opcode.extract hw1 (if i.opcode.twoHalfwords then hw2 else 0#16) = i := by
  cases i with
  | movReg | sub | jmp | movImm5 | cli | ldsr | sei =>
    refine ⟨_, 0#16, rfl, classify_packFields_of_opc6Opcode rfl _ _, ?_⟩
    simp [Opcode.extract, Instr.opcode, fieldLow5_packFields, fieldReg2_packFields]
  | nop | bv | bc | bz | bnh | bn | br | blt | ble | bnv | bnc | bnz | bh | bp | bge | bgt =>
    refine ⟨_, 0#16, rfl, classify_packCond _ _, ?_⟩
    simp [Opcode.extract, Instr.opcode, fieldDisp9_packCond]
  | movea hw2 | movhi hw2 | ldB hw2 | ldH hw2 | ldW hw2 | inB hw2 | inH hw2 | inW hw2 | stB _ hw2 | stH _ hw2 | stW _ hw2
  | outB _ hw2 | outH _ hw2 | outW _ hw2 =>
    refine ⟨_, hw2, rfl, classify_packFields_of_opc6Opcode rfl _ _, ?_⟩
    simp [Opcode.extract, Instr.opcode, Opcode.twoHalfwords, Opcode.format, fieldLow5_packFields, fieldReg2_packFields]

/-- Decoding undoes encoding, whatever follows. -/
theorem decode_encode (i : Instr) (rest : List Halfword) : decode (encode i ++ rest) = .instr i rest := by
  obtain ⟨hw1, hw2, he, hc, hi⟩ := encode_classify_extract i
  rw [he]
  cases h2 : i.opcode.twoHalfwords <;> simpa [decode, hc, h2] using hi

/-- Settles O2: each field has its encoding's width, and `encode` packs the fields that the decoder extracts. -/
theorem decodeOfEncodeIsTheInstruction : Obligations.DecodeOfEncodeIsTheInstruction := fun i rest =>
  ⟨i.wellFormed_eq_true, decode_encode i rest⟩

/-! ### The bytes of a stream of halfwords -/

/-- Where a stream of halfwords decodes, so do its bytes on the reference bus, to the same instruction (R87). -/
theorem decodeBytes_halfwordBytes {hws hrest : List Halfword} {i : Instr} (h : decode hws = .instr i hrest)
    (rest : List Byte) : decodeBytes (halfwordBytes hws ++ rest) = .instr i (halfwordBytes hrest ++ rest) := by
  cases hws with
  | nil => cases h
  | cons hw1 hws =>
    cases hc : classify hw1 with
    | none => simp [decode, hc] at h
    | some op =>
      cases h2 : op.twoHalfwords with
      | false =>
        obtain ⟨rfl, rfl⟩ : op.extract hw1 0#16 = i ∧ hws = hrest := by simpa [decode, hc, h2] using h
        simp [halfwordBytes, decodeBytes, joinBytes_split, hc, h2]
      | true =>
        cases hws with
        | nil => simp [decode, hc, h2] at h
        | cons hw2 hws =>
          obtain ⟨rfl, rfl⟩ : op.extract hw1 hw2 = i ∧ hws = hrest := by simpa [decode, hc, h2] using h
          simp [halfwordBytes, decodeBytes, joinBytes_split, hc, h2]

/-- Settles O3: the bytes decode as the halfwords do. -/
theorem decodeBytesOfEncodeIsTheInstruction : Obligations.DecodeBytesOfEncodeIsTheInstruction := fun i rest =>
  decodeBytes_halfwordBytes (List.append_nil (encode i) ▸ decode_encode i []) rest

/-- Settles O1, by running the decoder on each word. -/
theorem specExampleWordsDecode : Obligations.SpecExampleWordsDecode := by
  unfold Obligations.SpecExampleWordsDecode
  decide

end Sys2Proof
end

section
/-! PROOFS. The memory frame of the stores (spec/46_store.md R215; spec/20_memory.md R78, R87): a store changes no byte outside the
span of its bus write. -/

namespace Sys2Proof.Machine

section
variable {i : Instr} (w : Width) {d : Halfword} {r1 r2 : RegIdx} (h : memAccess i = some (.store w r2 d r1)) {s : State}
include h

/-- Every store completes and stays inside the span of its bus write (R215). -/
theorem writesWithin_storeSpan : WritesWithin i s (w.storeSpan (s.effAddr r1 d)) :=
  ⟨_, exec_store h s, fun a ha => readByte_memoryAfterWrite_other s w _ _ a ha⟩

theorem writesWithin_of_aligned (ha : w.aligned (s.effAddr r1 d) = true) :
    WritesWithin i s (s.effAddr r1 d, w.bytes) := by
  have hw := writesWithin_storeSpan w h (s := s)
  rwa [Width.storeSpan, if_pos ha] at hw

theorem writesWithin_of_misaligned (ha : ¬w.aligned (s.effAddr r1 d) = true) :
    WritesWithin i s (w.alignDown (s.effAddr r1 d), 2 * w.bytes) := by
  have hw := writesWithin_storeSpan w h (s := s)
  rwa [Width.storeSpan, if_neg ha] at hw
end

/-- Settles O39: a byte address is always aligned; a halfword's and a word's span depends on whether the address is. -/
theorem storesTouchOnlyTheirSpan : Obligations.StoresTouchOnlyTheirSpan := by
  intro r2 d r1 s
  refine ⟨writesWithin_of_aligned .byte rfl rfl, writesWithin_of_aligned .byte rfl rfl, fun ha => ?_, fun ha => ?_,
    fun ha => ?_, fun ha => ?_⟩
  · have ha := (aligned_half _).2 ha
    exact ⟨writesWithin_of_aligned .half rfl ha, writesWithin_of_aligned .half rfl ha⟩
  · have ha := (aligned_word _).2 ha
    exact ⟨writesWithin_of_aligned .word rfl ha, writesWithin_of_aligned .word rfl ha⟩
  · have ha := mt (aligned_half _).1 ha
    exact ⟨writesWithin_of_misaligned .half rfl ha, writesWithin_of_misaligned .half rfl ha⟩
  · have ha := mt (aligned_word _).1 ha
    exact ⟨writesWithin_of_misaligned .word rfl ha, writesWithin_of_misaligned .word rfl ha⟩

end Sys2Proof.Machine
end

section
/-! PROOFS. A word of the opcode table placed at `pc` is what the next step fetches (spec/10_state.md R31;
spec/70_reset_and_hazards.md R263). -/

namespace Sys2Proof.Machine

theorem decodeBytes_of_decodeTableWord {nbits w : Nat} {i : Instr} (h : decodeTableWord nbits w = some i) :
    ∃ rest, decodeBytes (tableWordBytes nbits w) = .instr i rest := by
  unfold decodeTableWord at h
  split at h
  · next j rest hd =>
    obtain rfl := Option.some.inj h
    exact ⟨rest, hd⟩
  · cases h

/-- After a word is written to canonical memory, the four bytes from its address up are the word's (R87). -/
theorem readBytes_writeWidth_word {m : Memory} (hm : Memory.wf m = true) (a v : Word) :
    [Memory.readByte (Memory.writeWidth m .word a v) a, Memory.readByte (Memory.writeWidth m .word a v) (a + 1#32),
      Memory.readByte (Memory.writeWidth m .word a v) (a + 2#32), Memory.readByte (Memory.writeWidth m .word a v) (a + 3#32)] =
      wordBytes v := by
  have hbyte {k : Nat} (hk : k < 4) := readByte_writeWidth (w := .word) hm hk a v
  have h0 := hbyte (k := 0) (by decide)
  rw [BitVec.add_zero] at h0
  rw [h0, hbyte (k := 1) (by decide), hbyte (k := 2) (by decide), hbyte (k := 3) (by decide)]
  rfl

/-- Settles O47: the bytes at `pc` are the placed word's, and with no queued answer the step runs what they decode to. -/
theorem placedWordIsTheNextInstruction : Obligations.PlacedWordIsTheNextInstruction := by
  intro s nbits w i hm hp hmem hq hd
  obtain ⟨rest, hd⟩ := decodeBytes_of_decodeTableWord hd
  have hq' : (s.withFetchWord nbits w).busAnswers = [] := by
    simp [State.withFetchWord, State.placeAtPc, hq]
  refine stepRunsTheInstructionInMemory (s.withFetchWord nbits w) i rest hm hp hq' ?_
  rw [← hd]
  exact congrArg decodeBytes (readBytes_writeWidth_word hmem s.pc _)

end Sys2Proof.Machine
end

section
/-! PROOFS. The model's invariant, memory in canonical form and the log in the shape of one step (spec/20_memory.md R72, R74, R79, R87):
it holds at reset, and every step and every operation of the host keeps it (spec/70_reset_and_hazards.md R260, R261, R266). -/

namespace Sys2Proof.Machine

/-! ### The shape of the log -/

/-- One to three accesses, and after them at most one operation that is none, have the shape. -/
theorem busLogShape_append {l tail : List BusEvent} (hl : ∀ e ∈ l, e.isAccess = true) (hlen : 1 ≤ l.length ∧ l.length ≤ 3)
    (htail : ∀ e ∈ tail, e.isAccess = false) (htlen : tail.length ≤ 1) : busLogShape (l ++ tail) = true := by
  have hsplit : tail.takeWhile BusEvent.isAccess = [] ∧ tail.dropWhile BusEvent.isAccess = tail := by
    cases tail with
    | nil => exact ⟨rfl, rfl⟩
    | cons e tail => simp [htail e List.mem_cons_self]
  simp [busLogShape, List.takeWhile_append_of_pos hl, List.dropWhile_append_of_pos hl, hsplit, hlen, htlen]

theorem isAccess_readEvent (w : Width) (a : Word) : (w.readEvent a).isAccess = true := by
  cases w <;> rfl

theorem isAccess_writeEvent (w : Width) (a v : Word) : (w.writeEvent a v).isAccess = true := by
  cases w <;> rfl

theorem isAccess_of_mem_fetchEvents {i : Instr} {pc : Word} {e : BusEvent} (he : e ∈ fetchEvents i pc) :
    e.isAccess = true := by
  unfold fetchEvents at he
  split at he
  · obtain rfl | rfl := List.mem_pair.1 he <;> rfl
  · obtain rfl := List.mem_singleton.1 he
    rfl

theorem isAccess_of_mem_dataAccess {i : Instr} {s : State} {e : BusEvent} (he : e ∈ dataAccess i s) : e.isAccess = true := by
  cases hm : memAccess i with
  | none => simp [dataAccess_none hm] at he
  | some m =>
    cases m with
    | load =>
      rw [dataAccess_load hm] at he
      exact List.mem_singleton.1 he ▸ isAccess_readEvent _ _
    | store =>
      rw [dataAccess_store hm] at he
      exact List.mem_singleton.1 he ▸ isAccess_writeEvent _ _ _

theorem length_fetchEvents (i : Instr) (pc : Word) : 1 ≤ (fetchEvents i pc).length ∧ (fetchEvents i pc).length ≤ 2 := by
  unfold fetchEvents
  split <;> simp

theorem busLogShape_fetchEvents (i : Instr) (pc : Word) : busLogShape (fetchEvents i pc) = true := by
  obtain ⟨h1, h2⟩ := length_fetchEvents i pc
  rw [← List.append_nil (fetchEvents i pc)]
  exact busLogShape_append (fun _ => isAccess_of_mem_fetchEvents) ⟨h1, by omega⟩ (by simp) (by simp)

/-- The bus operations of a completed step: one or two fetches, at most one data access, the cycle report (R79). -/
theorem busLogShape_completed (i : Instr) (pc : Word) (s : State) (n : Word) :
    busLogShape (fetchEvents i pc ++ dataAccess i s ++ [.cycles n]) = true := by
  have hf := length_fetchEvents i pc
  have hd := length_dataAccess_le i s
  refine busLogShape_append (fun e he => ?_) ?_ (by simp [BusEvent.isAccess]) (by simp)
  · exact (List.mem_append.1 he).elim isAccess_of_mem_fetchEvents isAccess_of_mem_dataAccess
  · rw [List.length_append]
    omega

/-- A fetch that stops has issued no access, or one. -/
theorem busLogShape_fetch_stop {s s1 : State} {f : Fault} (h : s.fetch = .stop f s1) : busLogShape s1.busLog = true := by
  obtain ⟨-, -, rfl⟩ | ⟨-, -, -, rfl⟩ := fetch_stop h <;> rfl

/-! ### Memory in canonical form -/

theorem wf_afterAccess {s : State} (h : Memory.wf s.mem = true) (m : Option MemAccess) :
    Memory.wf (s.afterAccess m).mem = true := by
  obtain _ | _ | _ := m
  · exact h
  · exact h
  · exact wf_memoryAfterWrite h _ _ _

/-! ### The invariant -/

/-- Settles O55: nothing is written and nothing is logged at reset. -/
theorem resetHasTheInvariant : Obligations.ResetHasTheInvariant := ⟨wf_reset, rfl⟩

/-- Settles O56: memory changes by the instruction's data access alone, and the log is that of a completed step. -/
theorem everyStepKeepsTheInvariant : Obligations.EveryStepKeepsTheInvariant := by
  rintro s t ⟨hwf, -⟩ h
  obtain ⟨-, i, s1, hf, he⟩ := step_next h
  refine ⟨?_, busLog_of_fetch_exec hf he ▸ busLogShape_completed i s.pc s _⟩
  obtain ⟨-, -, -, -, hmem, -⟩ := fetch_ready_frame hf
  obtain ⟨regs, psw, npc, rfl⟩ := exec_next_finish he
  exact wf_afterAccess (hmem ▸ hwf) (memAccess i)

/-- A step that faults writes no memory and leaves a log of the accesses it has issued. -/
theorem inv_afterStep_of_step_fault {s : State} {f : Fault} (hs : s.Inv) (h : step s = .fault f) : s.afterStep.Inv := by
  obtain ⟨hwf, -⟩ := hs
  obtain ⟨hm, ⟨s1, hf⟩ | ⟨i, s1, hf, he⟩⟩ := step_fault h
  · obtain ⟨-, -, -, hmem, -⟩ := fetch_stop_frame hf
    have hlog := busLogShape_fetch_stop hf
    rw [afterStep_of_fetch_stop hm hf]
    exact ⟨hmem ▸ hwf, hlog⟩
  · obtain ⟨-, hmem, hlog, -⟩ := exec_fault_afterStep_frame hm hf he
    exact ⟨hmem ▸ hwf, hlog ▸ busLogShape_fetchEvents i s.pc⟩

/-- A call of the host's step keeps the invariant, by the three outcomes of the step (R230). -/
theorem inv_afterStep {s : State} (hs : s.Inv) : s.afterStep.Inv := by
  obtain ⟨t, h⟩ | ⟨f, h⟩ | ⟨f, hm⟩ := theCoreStopsInExactlyThreeWays.2.2 s
  · rw [afterStep_of_step_next h]
    exact everyStepKeepsTheInvariant s t hs h
  · exact inv_afterStep_of_step_fault hs h
  · rwa [afterStep_of_faultMark hm]

/-- Settles O57: the step is `inv_afterStep`, reset empties the log and leaves memory, and no other operation touches either. -/
theorem everyHostOperationKeepsTheInvariant : Obligations.EveryHostOperationKeepsTheInvariant := by
  intro op s hs
  cases op with
  | reset => exact ⟨hs.1, rfl⟩
  | step => exact inv_afterStep hs
  | regPc | regGpr | regPsw | setRegPsw => exact hs

/-- Settles O52: reset writes the values of the reset state into the core, and no other operation clears the mark. -/
theorem hostResetRestoresTheCore : Obligations.HostResetRestoresTheCore := by
  intro s
  obtain ⟨hgpr, hpc, hpsw, -⟩ := resetLeavesTheStatedValues
  refine ⟨fun i => (gpr_congr rfl i).trans (hgpr i), hpc, hpsw, rfl, rfl, fun op f hm hop => ?_⟩
  rw [hostCall_faultMark op hm, if_neg hop]

end Sys2Proof.Machine
end
